-- ==== Sys2Proof/Word.lean ====
section
/-! DEFINITION. The word types of the CORE (00_scope.md R7, R10, R11): bit 0 is the least significant bit of each. -/

namespace Sys2Proof

/-- A general register, a memory cell, a timer, a frame-buffer cell (R21, R33, R35, R50). -/
abbrev Byte := BitVec 8

/-- An opcode, I, PC or a stack slot (R25, R29, R31, R37). -/
abbrev Word := BitVec 16

/-- The 12-bit absolute address `nnn` of an opcode (R72). -/
abbrev Addr12 := BitVec 12

/-- The index of a general register V0..VF (R21). -/
abbrev Reg := Fin 16

/-- VF, the flag register (R22). -/
abbrev Reg.vf : Reg := 15

/-- Memory addresses are 0x000..0xFFF (R50). -/
abbrev memSize : Nat := 4096

/-- The frame buffer has 64 x 32 cells (R35). -/
abbrev fbSize : Nat := 2048

end Sys2Proof
end

