-- ==== Sys2Proof/Syntax.lean ====
section
/-! DEFINITION. The instructions: one constructor per row of spec/opcode_table.json (30_encoding.md R80). A constructor
holds every field of its row and, where the row ignores bits of the word (R82), those bits too (`ign`): they select
nothing, but the word of the instruction, which a fault records (60_exceptions.md R232), is then known. Log 5. -/

namespace Sys2Proof

inductive Instr where
  /-- 00E0, any 0x0??0: clear display (R170) -/
  | cls (ign : Byte)
  /-- 00EE, any 0x0??E: return from subroutine (R121) -/
  | ret (ign : Byte)
  /-- 1nnn: jump (R122) -/
  | jp (nnn : Addr12)
  /-- 2nnn: call subroutine (R123) -/
  | call (nnn : Addr12)
  /-- 3xkk: skip if equal to immediate (R127) -/
  | seImm (x : Reg) (kk : Byte)
  /-- 4xkk: skip if not equal to immediate (R128) -/
  | sneImm (x : Reg) (kk : Byte)
  /-- 5xy0, any 5xyN: skip if registers equal (R129) -/
  | seReg (x y : Reg) (ign : BitVec 4)
  /-- 6xkk: set register to immediate (R141) -/
  | ldImm (x : Reg) (kk : Byte)
  /-- 7xkk: add immediate, no carry (R142) -/
  | addImm (x : Reg) (kk : Byte)
  /-- 8xy0: copy register (R143) -/
  | ldReg (x y : Reg)
  /-- 8xy1: bitwise OR (R144) -/
  | or (x y : Reg)
  /-- 8xy2: bitwise AND (R145) -/
  | and (x y : Reg)
  /-- 8xy3: bitwise exclusive OR (R146) -/
  | xor (x y : Reg)
  /-- 8xy4: add with carry (R147) -/
  | addReg (x y : Reg)
  /-- 8xy5: subtract with borrow (R148) -/
  | sub (x y : Reg)
  /-- 8xy6: shift right by one (R149) -/
  | shr (x y : Reg)
  /-- 8xy7: reverse subtract (R150) -/
  | subn (x y : Reg)
  /-- 8xyE: shift left by one (R151) -/
  | shl (x y : Reg)
  /-- 9xy0, any 9xyN: skip if registers differ (R130) -/
  | sneReg (x y : Reg) (ign : BitVec 4)
  /-- Annn: set index register (R201) -/
  | ldI (nnn : Addr12)
  /-- Bnnn: jump with offset V0 (R124) -/
  | jpV0 (nnn : Addr12)
  /-- Cxkk: random byte masked by immediate (R158) -/
  | rnd (x : Reg) (kk : Byte)
  /-- Dxyn: draw an n-row sprite (R171) -/
  | drw (x y : Reg) (n : BitVec 4)
  /-- Ex9E, any Ex?E: skip if key pressed (R180) -/
  | skp (x : Reg) (ign : BitVec 4)
  /-- ExA1, any Ex?1: skip if key not pressed (R181) -/
  | sknp (x : Reg) (ign : BitVec 4)
  /-- Fx07: read delay timer (R184) -/
  | ldVxDt (x : Reg)
  /-- Fx0A: wait for a key (R183) -/
  | ldVxK (x : Reg)
  /-- Fx15: set delay timer (R185) -/
  | ldDtVx (x : Reg)
  /-- Fx18: set sound timer (R186) -/
  | ldStVx (x : Reg)
  /-- Fx1E: add register to index (R202) -/
  | addI (x : Reg)
  /-- Fx29: font character address (R204) -/
  | ldF (x : Reg)
  /-- Fx33: BCD store (R206) -/
  | ldB (x : Reg)
  /-- Fx55: register block store (R208) -/
  | ldStore (x : Reg)
  /-- Fx65: register block load (R209) -/
  | ldLoad (x : Reg)
  /-- every word no other row matches: the no-op handler (R84, R108) -/
  | nop (word : Word)
deriving DecidableEq, Repr

/-- The handler a word selects (R80), that is a row of the decode table, without operands. -/
inductive Handler where
  | cls | ret | jp | call | seImm | sneImm | seReg | ldImm | addImm | ldReg | or | and | xor | addReg | sub | shr | subn
  | shl | sneReg | ldI | jpV0 | rnd | drw | skp | sknp | ldVxDt | ldVxK | ldDtVx | ldStVx | addI | ldF | ldB | ldStore
  | ldLoad | nop
deriving DecidableEq, Repr

/-- The row an instruction belongs to. -/
def Instr.handler : Instr → Handler
  | .cls _ => .cls
  | .ret _ => .ret
  | .jp _ => .jp
  | .call _ => .call
  | .seImm _ _ => .seImm
  | .sneImm _ _ => .sneImm
  | .seReg _ _ _ => .seReg
  | .ldImm _ _ => .ldImm
  | .addImm _ _ => .addImm
  | .ldReg _ _ => .ldReg
  | .or _ _ => .or
  | .and _ _ => .and
  | .xor _ _ => .xor
  | .addReg _ _ => .addReg
  | .sub _ _ => .sub
  | .shr _ _ => .shr
  | .subn _ _ => .subn
  | .shl _ _ => .shl
  | .sneReg _ _ _ => .sneReg
  | .ldI _ => .ldI
  | .jpV0 _ => .jpV0
  | .rnd _ _ => .rnd
  | .drw _ _ _ => .drw
  | .skp _ _ => .skp
  | .sknp _ _ => .sknp
  | .ldVxDt _ => .ldVxDt
  | .ldVxK _ => .ldVxK
  | .ldDtVx _ => .ldDtVx
  | .ldStVx _ => .ldStVx
  | .addI _ => .addI
  | .ldF _ => .ldF
  | .ldB _ => .ldB
  | .ldStore _ => .ldStore
  | .ldLoad _ => .ldLoad
  | .nop _ => .nop

end Sys2Proof
end

