-- ==== Sys2Proof/WellFormed.lean ====
section
/-! DEFINITION. Which terms of `Instr` are instructions: every field has the width of its row by its type, so the one
check left is that a no-op's word is a no-op encoding (30_encoding.md R84). -/

namespace Sys2Proof

/-- The no-op encodings, exhaustively, as R84 lists them by family and trailing nibble or byte. -/
def isNopWord (w : Word) : Bool :=
  let family := w.extractLsb' 12 4
  let nibble := w.extractLsb' 0 4
  let byte := w.extractLsb' 0 8
  (family == 0x0 && nibble != 0x0 && nibble != 0xE) ||
  (family == 0x8 && nibble.toNat ≥ 0x8 && nibble != 0xE) ||
  (family == 0xE && nibble != 0x1 && nibble != 0xE) ||
  (family == 0xF &&
    !([0x07, 0x0A, 0x15, 0x18, 0x1E, 0x29, 0x33, 0x55, 0x65] : List Byte).contains byte)

/-- A term of `Instr` that some word decodes to. -/
def Instr.wellFormed : Instr → Bool
  | .nop w => isNopWord w
  | _ => true

end Sys2Proof
end

