-- ==== Sys2Proof/Decode.lean ====
section
/-! DEFINITION. Decoding (30_encoding.md R70-R94): the field extraction of R72, the two-level dispatch of R75-R79, the
decoder on bytes, the encoder, and the decode table of R80 as rows of mask and match. -/

namespace Sys2Proof

/-! ## Fields (R72) -/

/-- The leading nibble `op[15:12]`, the family. -/
def Op.family (op : Word) : BitVec 4 := op.extractLsb' 12 4
/-- `x = op[11:8]`, a register index. -/
def Op.x (op : Word) : Reg := (op.extractLsb' 8 4).toFin
/-- `y = op[7:4]`, a register index. -/
def Op.y (op : Word) : Reg := (op.extractLsb' 4 4).toFin
/-- Bits 7-4 as bits: ignored in families 0 and E (R82). -/
def Op.mid (op : Word) : BitVec 4 := op.extractLsb' 4 4
/-- `n = op[3:0]`, the trailing nibble: a row count or a secondary selector. -/
def Op.n (op : Word) : BitVec 4 := op.extractLsb' 0 4
/-- `kk = op[7:0]`, the trailing byte. -/
def Op.kk (op : Word) : Byte := op.extractLsb' 0 8
/-- `nnn = op[11:0]`. -/
def Op.nnn (op : Word) : Addr12 := op.extractLsb' 0 12
/-- Bits 11-4: ignored in family 0 (R82). -/
def Op.ign8 (op : Word) : Byte := op.extractLsb' 4 8

/-! ## The two-level dispatch -/

/-- Secondary table of family 0, keyed on the trailing nibble (R76). -/
def decode0 (op : Word) : Instr :=
  if Op.n op = 0x0 then .cls (Op.ign8 op)
  else if Op.n op = 0xE then .ret (Op.ign8 op)
  else .nop op

/-- Secondary table of family 8, keyed on the trailing nibble (R77). -/
def decode8 (op : Word) : Instr :=
  if Op.n op = 0x0 then .ldReg (Op.x op) (Op.y op)
  else if Op.n op = 0x1 then .or (Op.x op) (Op.y op)
  else if Op.n op = 0x2 then .and (Op.x op) (Op.y op)
  else if Op.n op = 0x3 then .xor (Op.x op) (Op.y op)
  else if Op.n op = 0x4 then .addReg (Op.x op) (Op.y op)
  else if Op.n op = 0x5 then .sub (Op.x op) (Op.y op)
  else if Op.n op = 0x6 then .shr (Op.x op) (Op.y op)
  else if Op.n op = 0x7 then .subn (Op.x op) (Op.y op)
  else if Op.n op = 0xE then .shl (Op.x op) (Op.y op)
  else .nop op

/-- Secondary table of family E, keyed on the trailing nibble (R78, 90_conflicts.md C2). -/
def decodeE (op : Word) : Instr :=
  if Op.n op = 0xE then .skp (Op.x op) (Op.mid op)
  else if Op.n op = 0x1 then .sknp (Op.x op) (Op.mid op)
  else .nop op

/-- Secondary table of family F, keyed on the trailing byte (R79). -/
def decodeF (op : Word) : Instr :=
  if Op.kk op = 0x07 then .ldVxDt (Op.x op)
  else if Op.kk op = 0x0A then .ldVxK (Op.x op)
  else if Op.kk op = 0x15 then .ldDtVx (Op.x op)
  else if Op.kk op = 0x18 then .ldStVx (Op.x op)
  else if Op.kk op = 0x1E then .addI (Op.x op)
  else if Op.kk op = 0x29 then .ldF (Op.x op)
  else if Op.kk op = 0x33 then .ldB (Op.x op)
  else if Op.kk op = 0x55 then .ldStore (Op.x op)
  else if Op.kk op = 0x65 then .ldLoad (Op.x op)
  else .nop op

/-- The primary table, keyed on the leading nibble (R75). Every word decodes (R80, R83). -/
def decode (op : Word) : Instr :=
  match (Op.family op).toNat with
  | 0x0 => decode0 op
  | 0x1 => .jp (Op.nnn op)
  | 0x2 => .call (Op.nnn op)
  | 0x3 => .seImm (Op.x op) (Op.kk op)
  | 0x4 => .sneImm (Op.x op) (Op.kk op)
  | 0x5 => .seReg (Op.x op) (Op.y op) (Op.n op)
  | 0x6 => .ldImm (Op.x op) (Op.kk op)
  | 0x7 => .addImm (Op.x op) (Op.kk op)
  | 0x8 => decode8 op
  | 0x9 => .sneReg (Op.x op) (Op.y op) (Op.n op)
  | 0xA => .ldI (Op.nnn op)
  | 0xB => .jpV0 (Op.nnn op)
  | 0xC => .rnd (Op.x op) (Op.kk op)
  | 0xD => .drw (Op.x op) (Op.y op) (Op.n op)
  | 0xE => decodeE op
  | _ => decodeF op

/-! ## Bytes -/

/-- Why a byte sequence is no instruction: no word is illegal (R83), so only that a byte is missing. -/
inductive DecodeError where
  /-- fewer than the two bytes of an opcode are left (R70) -/
  | truncated
deriving DecidableEq, Repr

/-- The opcode of two bytes, the high byte first (R56, R101). -/
def wordOfBytes (hi lo : Byte) : Word := hi ++ lo

/-- The byte of an opcode at its lower address. -/
def highByte (op : Word) : Byte := op.extractLsb' 8 8

/-- The byte of an opcode at its higher address. -/
def lowByte (op : Word) : Byte := op.extractLsb' 0 8

/-- The instruction at the head of a byte sequence, and the rest. Total: a missing byte is refused by name. -/
def decodeBytes : List Byte → Except DecodeError (Instr × List Byte)
  | hi :: lo :: rest => .ok (decode (wordOfBytes hi lo), rest)
  | _ => .error .truncated

/-- The instruction of a table row whose bits are `w` (bit 0 the least significant bit of the word), laid out as
memory holds it and read by the decoder. Bits at and above `nbits` are 0. -/
def decodeTableWord (nbits w : Nat) : Option Instr :=
  let op : Word := BitVec.ofNat 16 (w % 2 ^ nbits)
  match decodeBytes [highByte op, lowByte op] with
  | .ok (i, _) => some i
  | .error _ => none

/-! ## Encoding (R71) -/

/-- A register index as the four bits of its field. -/
def Reg.bits (x : Reg) : BitVec 4 := BitVec.ofFin x

/-- A word of four nibbles, the family first (formats `xy`, `xys`, `xyn`). -/
def packNibbles (family a b c : BitVec 4) : Word := family ++ a ++ b ++ c

/-- A word of family, register and byte (formats `xkk` and `xsel` of family F). -/
def packByte (family a : BitVec 4) (kk : Byte) : Word := family ++ a ++ kk

/-- A word of family and address (format `nnn`). -/
def packAddr (family : BitVec 4) (nnn : Addr12) : Word := family ++ nnn

/-- A word of family 0 (format `sel0`). -/
def packSel0 (ign : Byte) (s : BitVec 4) : Word := (0x0#4 ++ ign) ++ s

/-- The word of an instruction: the match of its row in R80 with its fields, and the ignored bits it keeps, filled in. It
is the canonical spelling of R86 where those bits are the canonical ones. DESIGN CHOICE: log 5. -/
def encode : Instr → Word
  | .cls g => packSel0 g 0x0
  | .ret g => packSel0 g 0xE
  | .jp a => packAddr 0x1 a
  | .call a => packAddr 0x2 a
  | .seImm x k => packByte 0x3 x.bits k
  | .sneImm x k => packByte 0x4 x.bits k
  | .seReg x y g => packNibbles 0x5 x.bits y.bits g
  | .ldImm x k => packByte 0x6 x.bits k
  | .addImm x k => packByte 0x7 x.bits k
  | .ldReg x y => packNibbles 0x8 x.bits y.bits 0x0
  | .or x y => packNibbles 0x8 x.bits y.bits 0x1
  | .and x y => packNibbles 0x8 x.bits y.bits 0x2
  | .xor x y => packNibbles 0x8 x.bits y.bits 0x3
  | .addReg x y => packNibbles 0x8 x.bits y.bits 0x4
  | .sub x y => packNibbles 0x8 x.bits y.bits 0x5
  | .shr x y => packNibbles 0x8 x.bits y.bits 0x6
  | .subn x y => packNibbles 0x8 x.bits y.bits 0x7
  | .shl x y => packNibbles 0x8 x.bits y.bits 0xE
  | .sneReg x y g => packNibbles 0x9 x.bits y.bits g
  | .ldI a => packAddr 0xA a
  | .jpV0 a => packAddr 0xB a
  | .rnd x k => packByte 0xC x.bits k
  | .drw x y n => packNibbles 0xD x.bits y.bits n
  | .skp x g => packNibbles 0xE x.bits g 0xE
  | .sknp x g => packNibbles 0xE x.bits g 0x1
  | .ldVxDt x => packByte 0xF x.bits 0x07
  | .ldVxK x => packByte 0xF x.bits 0x0A
  | .ldDtVx x => packByte 0xF x.bits 0x15
  | .ldStVx x => packByte 0xF x.bits 0x18
  | .addI x => packByte 0xF x.bits 0x1E
  | .ldF x => packByte 0xF x.bits 0x29
  | .ldB x => packByte 0xF x.bits 0x33
  | .ldStore x => packByte 0xF x.bits 0x55
  | .ldLoad x => packByte 0xF x.bits 0x65
  | .nop w => w

/-! ## The decode table of R80 -/

/-- One row of R80: `op` matches it when `op & mask = pat`. -/
structure OpcodeRow where
  handler : Handler
  pat : Word
  mask : Word
deriving DecidableEq, Repr

/-- Whether a word matches a row. -/
def OpcodeRow.matches (r : OpcodeRow) (op : Word) : Bool := op &&& r.mask == r.pat

/-- The rows of R80 but the last. -/
def opcodeRows : List OpcodeRow :=
  [⟨.cls, 0x0000, 0xF00F⟩, ⟨.ret, 0x000E, 0xF00F⟩, ⟨.jp, 0x1000, 0xF000⟩, ⟨.call, 0x2000, 0xF000⟩,
   ⟨.seImm, 0x3000, 0xF000⟩, ⟨.sneImm, 0x4000, 0xF000⟩, ⟨.seReg, 0x5000, 0xF000⟩, ⟨.ldImm, 0x6000, 0xF000⟩,
   ⟨.addImm, 0x7000, 0xF000⟩] ++
  [⟨.ldReg, 0x8000, 0xF00F⟩, ⟨.or, 0x8001, 0xF00F⟩, ⟨.and, 0x8002, 0xF00F⟩, ⟨.xor, 0x8003, 0xF00F⟩,
   ⟨.addReg, 0x8004, 0xF00F⟩, ⟨.sub, 0x8005, 0xF00F⟩, ⟨.shr, 0x8006, 0xF00F⟩, ⟨.subn, 0x8007, 0xF00F⟩,
   ⟨.shl, 0x800E, 0xF00F⟩] ++
  [⟨.sneReg, 0x9000, 0xF000⟩, ⟨.ldI, 0xA000, 0xF000⟩, ⟨.jpV0, 0xB000, 0xF000⟩, ⟨.rnd, 0xC000, 0xF000⟩,
   ⟨.drw, 0xD000, 0xF000⟩, ⟨.skp, 0xE00E, 0xF00F⟩, ⟨.sknp, 0xE001, 0xF00F⟩] ++
  [⟨.ldVxDt, 0xF007, 0xF0FF⟩, ⟨.ldVxK, 0xF00A, 0xF0FF⟩, ⟨.ldDtVx, 0xF015, 0xF0FF⟩, ⟨.ldStVx, 0xF018, 0xF0FF⟩,
   ⟨.addI, 0xF01E, 0xF0FF⟩, ⟨.ldF, 0xF029, 0xF0FF⟩, ⟨.ldB, 0xF033, 0xF0FF⟩, ⟨.ldStore, 0xF055, 0xF0FF⟩,
   ⟨.ldLoad, 0xF065, 0xF0FF⟩]

/-- The last row of R80: it matches whatever no other row matches. -/
def nopRow : OpcodeRow := ⟨.nop, 0x0000, 0x0000⟩

end Sys2Proof
end

