-- ==== Sys2Proof/Config.lean ====
section
/-! DEFINITION. The five configuration parameters of 00_scope.md R8 and the two free inputs of a cycle
(10_state.md R41, R42): the random draw and the timer strobe. -/

namespace Sys2Proof

/-- `SHIFT_SRC` (R8, R152): which register the shifts read. -/
inductive ShiftSrc where
  | vx
  | vy
deriving DecidableEq, Repr

/-- `VF_ORDER` (R8, R107): which write wins when a family-8 flag instruction names VF as destination. -/
inductive VfOrder where
  | flagLast
  | resultLast
deriving DecidableEq, Repr

/-- `TIMER_MODE` (R8, R41): tick in every completed cycle, or only in a strobed one. -/
inductive TimerMode where
  | coupled
  | external
deriving DecidableEq, Repr

/-- `FONT` (R8, R44): the 80 bytes installed at 0x050. -/
abbrev Font := Vector Byte 80

/-- The configuration of one machine instance: fixed for its life (R47). -/
structure Config where
  /-- `SHIFT_SRC` -/
  shiftSrc : ShiftSrc
  /-- `BLOCK_INC_I` (R207) -/
  blockIncI : Bool
  /-- `VF_ORDER` -/
  vfOrder : VfOrder
  /-- `TIMER_MODE` -/
  timerMode : TimerMode
  /-- `FONT` -/
  font : Font
deriving DecidableEq, Repr

/-- The default of `FONT`: the table of R44, digit 0 first, five rows a digit. PRESUMED by the spec (D11): log 10. -/
def Font.default : Font := #v[
  0xF0, 0x90, 0x90, 0x90, 0xF0,
  0x20, 0x60, 0x20, 0x20, 0x70,
  0xF0, 0x10, 0xF0, 0x80, 0xF0,
  0xF0, 0x10, 0xF0, 0x10, 0xF0,
  0x90, 0x90, 0xF0, 0x10, 0x10,
  0xF0, 0x80, 0xF0, 0x10, 0xF0,
  0xF0, 0x80, 0xF0, 0x90, 0xF0,
  0xF0, 0x10, 0x20, 0x40, 0x40,
  0xF0, 0x90, 0xF0, 0x90, 0xF0,
  0xF0, 0x90, 0xF0, 0x10, 0xF0,
  0xF0, 0x90, 0xF0, 0x90, 0x90,
  0xE0, 0x90, 0xE0, 0x90, 0xE0,
  0xF0, 0x80, 0x80, 0x80, 0xF0,
  0xE0, 0x90, 0x90, 0x90, 0xE0,
  0xF0, 0x80, 0xF0, 0x80, 0xF0,
  0xF0, 0x80, 0xF0, 0x80, 0x80]

/-- The defaults of R8. -/
def Config.default : Config where
  shiftSrc := .vx
  blockIncI := false
  vfOrder := .flagLast
  timerMode := .coupled
  font := Font.default

/-- Free value: the byte of the k-th random draw (R157: "an arbitrary 8-bit value"; D10). It has no body, so nothing
is known of it, and the draws are unrelated to one another. Log 2. -/
opaque Config.randByte : Nat → Byte

/-- Free value: the k-th sample of the `timer_strobe` input (R41, D9). Log 3. -/
opaque Config.timerStrobe : Nat → Bool

end Sys2Proof
end

