-- ==== Sys2Proof/Machine/State.lean ====
section
/-! DEFINITION. The architectural state (10_state.md R20-R49), its value after reset (R46), and the reasons a step could
stop with. -/

namespace Sys2Proof.Machine

/-- The causes of R233. A faulting cycle records one of them in the fault status and is a NEXT state (R232). -/
inductive FaultCause where
  /-- no fault (code 0) -/
  | none
  /-- the fetch of any cycle with PC > 0xFFE (code 1, R234) -/
  | fetchOutOfBounds
  /-- DRW and LD Vx,[I] (code 2, R235) -/
  | readOutOfBounds
  /-- LD B,Vx and LD [I],Vx (code 3, R235) -/
  | writeOutOfBounds
  /-- CALL with SP = 16 (code 4, R236) -/
  | stackOverflow
  /-- RET with SP = 0 (code 5, R236) -/
  | stackUnderflow
  /-- SKP and SKNP with V[x] > 15 (code 6, R237) -/
  | keyIndexOutOfRange
deriving DecidableEq, Repr

/-- The code of a cause (R233). -/
def FaultCause.code : FaultCause → Nat
  | .none => 0
  | .fetchOutOfBounds => 1
  | .readOutOfBounds => 2
  | .writeOutOfBounds => 3
  | .stackOverflow => 4
  | .stackUnderflow => 5
  | .keyIndexOutOfRange => 6

/-- The fault status register (R38): read-only to the host, written only by fault entry and by reset. -/
structure FaultStatus where
  /-- 1 once any cycle has faulted -/
  faulted : Bool
  cause : FaultCause
  /-- PC at the start of the faulting cycle -/
  faultPc : Word
  /-- the faulting opcode, or 0 for `FetchOutOfBounds` -/
  faultOp : Word
  /-- the offending address, stack pointer or key index -/
  faultAddr : Word
deriving DecidableEq, Repr

/-- The fault status of a core that has not faulted (R46). -/
def FaultStatus.clear : FaultStatus := ⟨false, .none, 0, 0, 0⟩

/-- `raise Fault(cause, addr)` of a handler (R12): the cause and what `fault_addr` records. -/
structure Raise where
  cause : FaultCause
  addr : Word
deriving DecidableEq, Repr

/-- Memory (R50): the cells that differ from the reset contents, by rising address. -/
abbrev Memory := List Host.Cell

/-- The whole state of the core (R20), the configuration it was built with (R8, R47; log 1), and the model's two
counters of free inputs taken (log 2, log 3). -/
structure State where
  /-- memory (R20, R50) -/
  mem : Memory
  /-- V0..VF (R21) -/
  v : Vector Byte 16
  /-- the index register I (R29) -/
  i : Word
  /-- the program counter (R25) -/
  pc : Word
  /-- the call stack (R31) -/
  stack : Vector Word 16
  /-- the stack pointer: how many slots are occupied, 0..16 (R31, R32) -/
  sp : Fin 17
  /-- the delay timer DT (R33) -/
  dt : Byte
  /-- the sound timer ST (R34) -/
  st : Byte
  /-- the frame buffer: cell (col, row) at index row * 64 + col, 0x00 off, 0xFF on (R35) -/
  fb : Vector Byte fbSize
  /-- the key bitmap, true meaning pressed; written by the host only (R36) -/
  key : Vector Bool 16
  /-- the fault status (R38) -/
  fault : FaultStatus
  /-- the configuration parameters (R8, R47) -/
  cfg : Config
  /-- the model's own: how many random draws have been taken (log 2) -/
  draws : Nat
  /-- the model's own: how many strobe samples have been taken (log 3) -/
  strobes : Nat
deriving DecidableEq, Repr

/-- The state after `initialize` (R46, R260) of a machine instance with configuration `cfg` whose free inputs have been
taken `draws` and `strobes` times. Memory lists nothing: every byte is at its reset value. -/
def State.initial (cfg : Config) (draws strobes : Nat) : State where
  mem := []
  v := Vector.replicate 16 0x00
  i := 0x0000
  pc := 0x0200
  stack := Vector.replicate 16 0x0000
  sp := 0
  dt := 0
  st := 0
  fb := Vector.replicate fbSize 0x00
  key := Vector.replicate 16 false
  fault := FaultStatus.clear
  cfg := cfg
  draws := draws
  strobes := strobes

/-- The machine right after reset, with the default configuration of R8. -/
def State.reset : State := State.initial Config.default 0 0

/-- The reasons a step could end in a fault OUTSIDE the machine. There are none: every fault of this core is described
by the spec as a state (R232) and is a next state here, so this type has no constructor, nothing raises it, and that is
safe (log 4). -/
inductive Fault where
deriving DecidableEq, Repr

/-- The reasons an instruction could be refused. -/
inductive Refusal where
  /-- An arm of `exec` whose instruction has no meaning yet: raised by nobody, since every arm has its meaning (R17:
  "There is no refusal inside the model"); it would be safe. -/
  | notModelled (mnemonic : String)
deriving DecidableEq, Repr

end Sys2Proof.Machine
end

