-- ==== Sys2Proof/Machine/Ops.lean ====
section
/-! DEFINITION. The named operations over memory, registers, stack, timers and frame buffer; the fetch; fault entry as
ONE shared operation, and reset, the only way out of it. -/

namespace Sys2Proof.Machine

/-! ## Memory (20_memory.md) -/

/-- What an address reads as that no write has changed: the reset contents (R46). -/
def Memory.unlisted (font : Font) (a : Nat) : Byte :=
  if h : 0x050 ≤ a ∧ a < 0x0A0 then font[a - 0x050]'(by omega) else 0x00

/-- The listed byte of an address. -/
def Memory.lookup : Memory → Nat → Option Byte
  | [], _ => none
  | c :: m, a => if c.1 = a then some c.2 else Memory.lookup m a

/-- `Mem[a]` (R55). -/
def Memory.read (font : Font) (m : Memory) (a : Nat) : Byte :=
  (Memory.lookup m a).getD (Memory.unlisted font a)

/-- `Mem[a] <- b` (R55), keeping the canonical form. -/
def Memory.write (font : Font) : Memory → Nat → Byte → Memory
  | [], a, b => if b = Memory.unlisted font a then [] else [(a, b)]
  | c :: m, a, b =>
    if a < c.1 then (if b = Memory.unlisted font a then c :: m else (a, b) :: c :: m)
    else if a = c.1 then (if b = Memory.unlisted font a then m else (a, b) :: m)
    else c :: Memory.write font m a b

/-- The canonical form: addresses strictly rising and inside the address space, no entry equal to what an unlisted
address reads as. -/
abbrev Memory.wf (font : Font) (m : Memory) : Prop :=
  m.Pairwise (fun c d => c.1 < d.1) ∧ ∀ c ∈ m, c.1 < memSize ∧ c.2 ≠ Memory.unlisted font c.1

/-- The byte at an address of this state. -/
def State.readByte (s : State) (a : Nat) : Byte := Memory.read s.cfg.font s.mem a

/-- This state with a byte stored. -/
def State.writeByte (s : State) (a : Nat) (b : Byte) : State :=
  { s with mem := Memory.write s.cfg.font s.mem a b }

/-- `MemRead(a, 1)` (R57): `a` is the full-width sum. -/
def State.memRead (s : State) (a : Nat) : Except Raise Byte :=
  if a > 0xFFF then .error ⟨.readOutOfBounds, BitVec.ofNat 16 a⟩ else .ok (s.readByte a)

/-- `MemWrite(a, 1, b)` (R57). -/
def State.memWrite (s : State) (a : Nat) (b : Byte) : Except Raise State :=
  if a > 0xFFF then .error ⟨.writeOutOfBounds, BitVec.ofNat 16 a⟩ else .ok (s.writeByte a b)

/-- The bytes at `a, a+1, …, a+n-1`, each read checked in this order (R57, R210). -/
def State.memReads (s : State) (a : Nat) : Nat → Except Raise (List Byte)
  | 0 => .ok []
  | n + 1 =>
    match s.memRead a with
    | .error r => .error r
    | .ok b =>
      match s.memReads (a + 1) n with
      | .error r => .error r
      | .ok bs => .ok (b :: bs)

/-- Store bytes at `a, a+1, …`, each write checked in this order (R57, R210). -/
def State.memWrites (s : State) (a : Nat) : List Byte → Except Raise State
  | [] => .ok s
  | b :: bs =>
    match s.memWrite a b with
    | .error r => .error r
    | .ok s' => s'.memWrites (a + 1) bs

/-! ## General registers (10_state.md R21) -/

/-- `V[x]`. -/
def State.reg (s : State) (x : Reg) : Byte := s.v[x]

/-- `V[x] <- b`. -/
def State.setReg (s : State) (x : Reg) (b : Byte) : State := { s with v := s.v.set x b }

/-- `V[k], V[k+1], … <- bytes`; there is no register past VF. -/
def State.setRegs (s : State) (k : Nat) : List Byte → State
  | [] => s
  | b :: bs => State.setRegs { s with v := s.v.setIfInBounds k b } (k + 1) bs

/-- The values of V0..Vx, in order. -/
def State.regsUpTo (s : State) (x : Reg) : List Byte := s.v.toList.take (x.val + 1)

/-! ## Special registers -/

/-- `PC <- a`. -/
def State.setPc (s : State) (a : Word) : State := { s with pc := a }

/-- `PC <- w16(PC + 2)`: the advance of every cycle (R102) and of a skip whose condition holds (R125). -/
def State.advancePc (s : State) : State := { s with pc := s.pc + 2 }

/-- `if condition then PC <- w16(PC + 2)` (R125). -/
def State.skipIf (s : State) (c : Bool) : State := if c then s.advancePc else s

/-- `PC <- w16(PC - 2)`: back to the instruction's own address (R183). -/
def State.rewindPc (s : State) : State := { s with pc := s.pc - 2 }

/-- `I <- a`. -/
def State.setI (s : State) (a : Word) : State := { s with i := a }

/-- A push of the PC (R31): `Stack[SP] <- PC`, then `SP <- SP + 1`; `StackOverflow` when SP = 16. -/
def State.pushPc (s : State) : Except Raise State :=
  if h : s.sp.val < 16 then
    .ok { s with stack := s.stack.set s.sp.val s.pc, sp := ⟨s.sp.val + 1, by omega⟩ }
  else .error ⟨.stackOverflow, BitVec.ofNat 16 s.sp.val⟩

/-- A pop into the PC (R31): `SP <- SP - 1`, then `PC <- Stack[SP]`; `StackUnderflow` when SP = 0. -/
def State.popPc (s : State) : Except Raise State :=
  if h : 0 < s.sp.val then
    .ok { s with pc := s.stack[s.sp.val - 1]'(by omega), sp := ⟨s.sp.val - 1, by omega⟩ }
  else .error ⟨.stackUnderflow, BitVec.ofNat 16 s.sp.val⟩

/-! ## Timers (R105) -/

/-- One tick of one timer: down by 1, never below 0. -/
def decTimer (t : Byte) : Byte := if t = 0 then 0 else t - 1

/-- Whether this completing cycle ticks (R41, R105). -/
def State.tickDue (s : State) : Bool :=
  match s.cfg.timerMode with
  | .coupled => true
  | .external => Config.timerStrobe s.strobes

/-- A completing cycle of external mode has taken its strobe sample (log 3). -/
def State.takeStrobe (s : State) : State :=
  match s.cfg.timerMode with
  | .coupled => s
  | .external => { s with strobes := s.strobes + 1 }

/-- `Tick()` (R105). -/
def State.tick (s : State) : State :=
  let t := s.takeStrobe
  if s.tickDue then { t with dt := decTimer s.dt, st := decTimer s.st } else t

/-! ## Frame buffer (R35, R170-R173) -/

/-- Cell (col, row) with both coordinates wrapped: `(row mod 32) * 64 + (col mod 64)` (R172). -/
def cellIndex (col row : Nat) : Fin fbSize := ⟨row % 32 * 64 + col % 64, by unfold fbSize; omega⟩

/-- The frame buffer in the course of a draw, with the collision so far (R171). -/
abbrev Canvas := Vector Byte fbSize × Bool

/-- XOR one cell and note whether it was on (R173). -/
def drawCell (p : Canvas) (c : Fin fbSize) : Canvas := (p.1.set c (p.1[c] ^^^ 0xFF), p.2 || p.1[c] == 0xFF)

/-- Draw one sprite row at (col, row): bit 7 is the leftmost pixel. -/
def drawRow (col row : Nat) (b : Byte) (p : Canvas) : Canvas :=
  (List.range 8).foldl (fun q k => if b.getLsbD (7 - k) then drawCell q (cellIndex (col + k) row) else q) p

/-- Draw sprite rows from (col, row) downwards. -/
def drawRows (col row : Nat) : List Byte → Canvas → Canvas
  | [], p => p
  | b :: bs, p => drawRows col (row + 1) bs (drawRow col row b p)

/-- Every cell off (R170). -/
def State.clearDisplay (s : State) : State := { s with fb := Vector.replicate fbSize 0x00 }

/-! ## Keys (R36, R183) -/

/-- The ascending scan of the bitmap from key `k`, `n` keys long: the first pressed key. -/
def scanKeys (key : Vector Bool 16) (k : Nat) : Nat → Option Byte
  | 0 => none
  | n + 1 => if key[k]?.getD false then some (BitVec.ofNat 8 k) else scanKeys key (k + 1) n

/-! ## The random draw (R157) -/

/-- `RandByte()`: the draw of this cycle. -/
def State.draw (s : State) : Byte := Config.randByte s.draws

/-- One draw has been taken. -/
def State.takeDraw (s : State) : State := { s with draws := s.draws + 1 }

/-! ## Fetch (R101) -/

/-- Whether the fetch stays inside memory: PC ≤ 0xFFE (R58). -/
def State.fetchOk (s : State) : Bool := s.pc.toNat ≤ 0xFFE

/-- The opcode at PC: the high byte at the lower address (R56, R101). -/
def State.fetchWord (s : State) : Word :=
  wordOfBytes (s.readByte s.pc.toNat) (s.readByte (s.pc.toNat + 1))

/-! ## Fault entry, and reset -/

/-- `raise Fault(cause, addr)` (R232) in the cycle that started in `s0` and fetched `op`: the state before the cycle
with only the fault status written. There is no handler to go to (R240). -/
def State.enterFault (s0 : State) (op : Word) (r : Raise) : State :=
  { s0 with fault := ⟨true, r.cause, s0.pc, op, r.addr⟩ }

/-- How a handler ends, run on the state after the PC advance (R104, R106): with its result, or with the state before
the cycle, whose PC is 2 less, and the fault status of the instruction `i`. Log 6. -/
def endHandler (i : Instr) (s : State) : Except Raise State → Host.Outcome State Fault Refusal
  | .ok t => .next t
  | .error r => .next (s.rewindPc.enterFault (encode i) r)

/-- `initialize()` (R260, R269): every piece of state at its reset value, the fault status cleared (R241). The
configuration is kept (R47), and the free inputs go on where they were: the random source is reseeded (log 2). -/
def State.init (s : State) : State := State.initial s.cfg s.draws s.strobes

/-! ## Placing an instruction -/

/-- This state made one whose next cycle fetches: not halted by a fault, and PC ≤ 0xFFE. A state that is so already is
unchanged. Log 8. -/
def State.readyToFetch (s : State) : State :=
  { s with
    fault := if s.fault.faulted then FaultStatus.clear else s.fault
    pc := if s.fetchOk then s.pc else 0x0200 }

/-- This state with the opcode `op` stored at PC, the high byte first (R56). -/
def State.storeOpcode (s : State) (op : Word) : State :=
  (s.writeByte s.pc.toNat (highByte op)).writeByte (s.pc.toNat + 1) (lowByte op)

/-- This state with the opcode `op` stored where the next cycle fetches it. Log 8. -/
def State.placeOpcode (s : State) (op : Word) : State := s.readyToFetch.storeOpcode op

end Sys2Proof.Machine
end

