-- ==== Sys2Proof/Machine/Flags.lean ====
section
/-! DEFINITION. The flag computations: VF is the only flag (10_state.md R28), each value is of the operands before the
operation, and `VF_ORDER` decides which write is last where the destination is VF (40_engine.md R107). -/

namespace Sys2Proof.Machine

/-- A flag as the byte VF holds. -/
def flagByte (b : Bool) : Byte := if b then 1 else 0

/-- The carry of an 8-bit addition (R140, R147): the sum exceeds 255. -/
def carryFlag (a b : Byte) : Byte := flagByte (a.toNat + b.toNat > 255)

/-- No borrow in `a - b` (R140, R148, R150): strictly greater. -/
def noBorrowFlag (a b : Byte) : Byte := flagByte (a.toNat > b.toNat)

/-- The bit a right shift drops (R149). -/
def shiftOutRight (a : Byte) : Byte := flagByte (a.getLsbD 0)

/-- The bit a left shift drops (R151). -/
def shiftOutLeft (a : Byte) : Byte := flagByte (a.getLsbD 7)

/-- `write V[x] <- res and V[0xF] <- flag in VF_ORDER` (R107). -/
def State.setRegAndFlag (s : State) (x : Reg) (res flag : Byte) : State :=
  match s.cfg.vfOrder with
  | .flagLast => (s.setReg x res).setReg Reg.vf flag
  | .resultLast => (s.setReg Reg.vf flag).setReg x res

end Sys2Proof.Machine
end

