-- ==== Sys2Proof/Machine/Operands.lean ====
section
/-! DEFINITION. The operand forms: immediates and addresses (30_encoding.md R73, 45_index_memory.md R200), the shift
source (42_alu.md R152), the key an instruction names (R182), BCD digits (R205) and the block transfer's effect on I
(R207). -/

namespace Sys2Proof.Machine

/-- `zext_16(nnn)` (R73). -/
def addrWord (nnn : Addr12) : Word := nnn.setWidth 16

/-- `V0 + nnn` (R124): the mask before the addition, the sum not reduced modulo 0x1000. -/
def State.v0Indexed (s : State) (nnn : Addr12) : Word := (s.reg 0).setWidth 16 + addrWord nnn

/-- The register a shift reads (R152). -/
def State.shiftOperand (s : State) (x y : Reg) : Byte :=
  match s.cfg.shiftSrc with
  | .vx => s.reg x
  | .vy => s.reg y

/-- Whether the key that V[x] names is pressed; an index above 15 raises (R182). -/
def State.keyNamed (s : State) (x : Reg) : Except Raise Bool :=
  if h : (s.reg x).toNat < 16 then .ok s.key[(s.reg x).toNat]
  else .error ⟨.keyIndexOutOfRange, (s.reg x).setWidth 16⟩

/-- The font address of V[x] (R204): `0x050 + 5 * V[x]`, the register not masked. -/
def State.fontAddr (s : State) (x : Reg) : Word := 0x050 + 5 * (s.reg x).setWidth 16

/-- The BCD digits, hundreds first (R205). -/
def bcdDigits (b : Byte) : List Byte := [b / 100, b / 10 % 10, b % 10]

/-- What a block transfer of V0..Vx does to I (R207). -/
def State.blockAdvanceI (s : State) (x : Reg) : State :=
  if s.cfg.blockIncI then { s with i := s.i + BitVec.ofNat 16 (x.val + 1) } else s

end Sys2Proof.Machine
end

