-- ==== Sys2Proof/Machine/Display.lean ====
section
/-! DEFINITION. The display (43_display.md), run on the state after the fetch and the PC advance. -/

namespace Sys2Proof.Machine

/-- CLS (R170). -/
def execCls (_ign : Byte) (s : State) : Host.Outcome State Fault Refusal :=
  .next s.clearDisplay

/-- The sprite of `rows` drawn at (V[x], V[y]), the coordinates read before VF is written (R171). -/
def State.drawSprite (s : State) (x y : Reg) (rows : List Byte) : State :=
  let p := drawRows (s.reg x).toNat (s.reg y).toNat rows (s.fb, false)
  State.setReg { s with fb := p.1 } Reg.vf (flagByte p.2)

/-- DRW Vx,Vy,n (R171-R175): the rows are read from I on, each read checked. -/
def execDrw (x y : Reg) (n : BitVec 4) (s : State) : Host.Outcome State Fault Refusal :=
  endHandler (.drw x y n) s ((s.memReads s.i.toNat n.toNat).map fun rows => s.drawSprite x y rows)

end Sys2Proof.Machine
end

