-- ==== Sys2Proof/Machine/Engine.lean ====
section
/-! DEFINITION. The no-op handler (40_engine.md R108). -/

namespace Sys2Proof.Machine

/-- NOP (R108): nothing; the fetch, the PC advance and the tick are the cycle's. -/
def execNop (_word : Word) (s : State) : Host.Outcome State Fault Refusal :=
  .next s

end Sys2Proof.Machine
end

