-- ==== Sys2Proof/Machine/Flow.lean ====
section
/-! DEFINITION. Control flow (41_flow.md), run on the state after the fetch and the PC advance (40_engine.md R111). -/

namespace Sys2Proof.Machine

/-- RET (R121). -/
def execRet (ign : Byte) (s : State) : Host.Outcome State Fault Refusal :=
  endHandler (.ret ign) s s.popPc

/-- JP nnn (R122). -/
def execJp (nnn : Addr12) (s : State) : Host.Outcome State Fault Refusal :=
  .next (s.setPc (addrWord nnn))

/-- CALL nnn (R123): the pushed PC is the address after the call. -/
def execCall (nnn : Addr12) (s : State) : Host.Outcome State Fault Refusal :=
  endHandler (.call nnn) s (s.pushPc.map fun t => t.setPc (addrWord nnn))

/-- JP V0,nnn (R124). -/
def execJpV0 (nnn : Addr12) (s : State) : Host.Outcome State Fault Refusal :=
  .next (s.setPc (s.v0Indexed nnn))

/-- SE Vx,kk (R127). -/
def execSeImm (x : Reg) (kk : Byte) (s : State) : Host.Outcome State Fault Refusal :=
  .next (s.skipIf (s.reg x == kk))

/-- SNE Vx,kk (R128). -/
def execSneImm (x : Reg) (kk : Byte) (s : State) : Host.Outcome State Fault Refusal :=
  .next (s.skipIf (s.reg x != kk))

/-- SE Vx,Vy (R129): the trailing nibble is ignored (R82). -/
def execSeReg (x y : Reg) (_ign : BitVec 4) (s : State) : Host.Outcome State Fault Refusal :=
  .next (s.skipIf (s.reg x == s.reg y))

/-- SNE Vx,Vy (R130): the trailing nibble is ignored (R82). -/
def execSneReg (x y : Reg) (_ign : BitVec 4) (s : State) : Host.Outcome State Fault Refusal :=
  .next (s.skipIf (s.reg x != s.reg y))

end Sys2Proof.Machine
end

