-- ==== Sys2Proof/Machine/IndexMemory.lean ====
section
/-! DEFINITION. The index register and the load/store unit (45_index_memory.md), run on the state after the fetch and the PC advance. -/

namespace Sys2Proof.Machine

/-- LD I,nnn (R201). -/
def execLdI (nnn : Addr12) (s : State) : Host.Outcome State Fault Refusal :=
  .next (s.setI (addrWord nnn))

/-- ADD I,Vx (R202): no flag, no bound check. -/
def execAddI (x : Reg) (s : State) : Host.Outcome State Fault Refusal :=
  .next (s.setI (s.i + (s.reg x).setWidth 16))

/-- LD F,Vx (R204). -/
def execLdF (x : Reg) (s : State) : Host.Outcome State Fault Refusal :=
  .next (s.setI (s.fontAddr x))

/-- LD B,Vx (R206). -/
def execLdB (x : Reg) (s : State) : Host.Outcome State Fault Refusal :=
  endHandler (.ldB x) s (s.memWrites s.i.toNat (bcdDigits (s.reg x)))

/-- LD [I],Vx (R208, R210). -/
def execLdStore (x : Reg) (s : State) : Host.Outcome State Fault Refusal :=
  endHandler (.ldStore x) s
    ((s.memWrites s.i.toNat (s.regsUpTo x)).map fun t => t.blockAdvanceI x)

/-- LD Vx,[I] (R209, R210). -/
def execLdLoad (x : Reg) (s : State) : Host.Outcome State Fault Refusal :=
  endHandler (.ldLoad x) s
    ((s.memReads s.i.toNat (x.val + 1)).map fun bs => (s.setRegs 0 bs).blockAdvanceI x)

end Sys2Proof.Machine
end

