-- ==== Sys2Proof/Machine/KeysTimers.lean ====
section
/-! DEFINITION. Keys and timers (44_keys_timers.md), run on the state after the fetch and the PC advance; the tick of the cycle follows (40_engine.md R105). -/

namespace Sys2Proof.Machine

/-- SKP Vx (R180, R182): bits 7-4 are ignored (R82). -/
def execSkp (x : Reg) (ign : BitVec 4) (s : State) : Host.Outcome State Fault Refusal :=
  endHandler (.skp x ign) s ((s.keyNamed x).map fun pressed => s.skipIf pressed)

/-- SKNP Vx (R181, R182): bits 7-4 are ignored (R82). -/
def execSknp (x : Reg) (ign : BitVec 4) (s : State) : Host.Outcome State Fault Refusal :=
  endHandler (.sknp x ign) s ((s.keyNamed x).map fun pressed => s.skipIf (!pressed))

/-- LD Vx,K (R183): the lowest pressed key, or the instruction again in the next cycle. -/
def execLdVxK (x : Reg) (s : State) : Host.Outcome State Fault Refusal :=
  match scanKeys s.key 0 16 with
  | some k => .next (s.setReg x k)
  | none => .next s.rewindPc

/-- LD Vx,DT (R184): the value before the tick. -/
def execLdVxDt (x : Reg) (s : State) : Host.Outcome State Fault Refusal :=
  .next (s.setReg x s.dt)

/-- LD DT,Vx (R185). -/
def execLdDtVx (x : Reg) (s : State) : Host.Outcome State Fault Refusal :=
  .next { s with dt := s.reg x }

/-- LD ST,Vx (R186). -/
def execLdStVx (x : Reg) (s : State) : Host.Outcome State Fault Refusal :=
  .next { s with st := s.reg x }

end Sys2Proof.Machine
end

