-- ==== Sys2Proof/Machine/Cycle.lean ====
section
/-! DEFINITION. The cycle (40_engine.md R100): fetch, PC advance, dispatch, execute, tick. -/

namespace Sys2Proof.Machine

/-- What follows a handler: the tick if it completed, nothing if it faulted (R105, R106). -/
def afterHandler : Host.Outcome State Fault Refusal → Host.Outcome State Fault Refusal
  | .next t => .next (if t.fault.faulted then t else t.tick)
  | .fault r => .fault r
  | .refused r => .refused r

/-- `cycle()` (R100): a faulted core does nothing (R109); a fetch past 0xFFE faults (R58); else the opcode at PC runs. -/
def cycle (s : State) : Host.Outcome State Fault Refusal :=
  if s.fault.faulted then .next s
  else if s.fetchOk then afterHandler (exec (decode s.fetchWord) s.advancePc)
  else .next (s.enterFault 0 ⟨.fetchOutOfBounds, s.pc⟩)

end Sys2Proof.Machine
end

