-- ==== Sys2Proof/Machine/HostPort.lean ====
section
/-! DEFINITION. What the host can do between cycles (60_exceptions.md R250, 10_state.md R42, R43): initialize (`State.init`
of Ops), load, write the key bitmap, read the views. None of it is part of a step (log 7). -/

namespace Sys2Proof.Machine

/-- `load_status` (R42). -/
inductive LoadStatus where
  | ok
  | unavailable
  | tooLarge
deriving DecidableEq, Repr

/-- The longest ROM (R7, R265): 0x1000 - 0x200 bytes. -/
def maxRom : Nat := 3584

/-- Copy bytes into memory from address `a` on, verbatim (R263). -/
def State.copyIn (s : State) (a : Nat) : List Byte → State
  | [] => s
  | b :: bs => (s.writeByte a b).copyIn (a + 1) bs

/-- `load(bytes)` (R263-R266): `none` is a byte source that is unavailable. It has a meaning on a freshly initialised
machine only (R268); `HostMove.load` says so. -/
def State.load (s : State) (source : Option (List Byte)) : LoadStatus × State :=
  match source with
  | none => (.unavailable, s)
  | some bytes => if bytes.length > maxRom then (.tooLarge, s) else (.ok, s.copyIn 0x200 bytes)

/-- Key update (R250): the host writes the 16 flags. -/
def State.writeKeys (s : State) (key : Vector Bool 16) : State := { s with key := key }

/-- The read views (R43). Memory has none. -/
structure View where
  fb : Vector Byte fbSize
  pc : Word
  i : Word
  sp : Nat
  stack : Vector Word 16
  dt : Byte
  st : Byte
  v : Vector Byte 16
  key : Vector Bool 16
  fault : FaultStatus
deriving DecidableEq, Repr

/-- What the host reads between cycles (R43). -/
def State.view (s : State) : View where
  fb := s.fb
  pc := s.pc
  i := s.i
  sp := s.sp.val
  stack := s.stack
  dt := s.dt
  st := s.st
  v := s.v
  key := s.key
  fault := s.fault

/-- Cell (col, row) of the frame-buffer view (R35). -/
def View.pixel (w : View) (col : Fin 64) (row : Fin 32) : Byte := w.fb[row.val * 64 + col.val]'(by
  have := row.isLt; have := col.isLt; unfold fbSize; omega)

/-- The moves of the host that change the state (R250): each happens between cycles. -/
inductive HostMove : State → State → Prop where
  /-- initialize, at any time (R269) -/
  | init (s : State) : HostMove s s.init
  /-- load, once, on a freshly initialised machine (R268) -/
  | load (s : State) (source : Option (List Byte)) : s = s.init → HostMove s (s.load source).2
  /-- a key update -/
  | keys (s : State) (key : Vector Bool 16) : HostMove s (s.writeKeys key)

end Sys2Proof.Machine
end

