-- ==== Sys2Proof/Safety.lean ====
section
/-! DEFINITION. The terms claims are made in: what an instruction leaves unchanged, the invariants of 10_state.md R48,
and the ends of a run (60_exceptions.md R254). -/

namespace Sys2Proof.Machine

/-! ## Frames -/

/-- The parts of the state that a frame names. -/
inductive Part where
  | memory | regs | index | pc | stack | delay | sound | display | keys | faultStatus | config | draws | strobes
deriving DecidableEq, Repr

/-- Part `p` is in `t` what it is in `s`. Memory and registers are compared by what a read of them gives. -/
def Part.unchanged (p : Part) (s t : State) : Prop :=
  match p with
  | .memory => ∀ a : Nat, t.readByte a = s.readByte a
  | .regs => ∀ r : Reg, t.reg r = s.reg r
  | .index => t.i = s.i
  | .pc => t.pc = s.pc
  | .stack => t.sp = s.sp ∧ t.stack = s.stack
  | .delay => t.dt = s.dt
  | .sound => t.st = s.st
  | .display => t.fb = s.fb
  | .keys => t.key = s.key
  | .faultStatus => t.fault = s.fault
  | .config => t.cfg = s.cfg
  | .draws => t.draws = s.draws
  | .strobes => t.strobes = s.strobes

/-- Every part but those listed is unchanged. -/
def UnchangedBut (changed : List Part) (s t : State) : Prop := ∀ p : Part, p ∉ changed → p.unchanged s t

/-- The outcome with its next state changed by `f`. -/
def mapNext (f : State → State) : Host.Outcome State Fault Refusal → Host.Outcome State Fault Refusal
  | .next t => .next (f t)
  | .fault r => .fault r
  | .refused r => .refused r

/-! ## Encodings, faults and flags as the rules write them -/

/-- Every word `op` with `op & mask = pat` decodes to the instruction `i op` (an encoding line of R121-R209). -/
def EncodedAs (mask pat : Word) (i : Word → Instr) : Prop := ∀ op : Word, op &&& mask = pat → decode op = i op

/-- The handler of `i`, run at `s` (PC already advanced), raises: the outcome is the state before the cycle, whose PC is
2 less, with the fault status written (R232). -/
def FaultsAs (i : Instr) (s : State) (cause : FaultCause) (addr : Word) : Prop :=
  exec i s = .next { s with pc := s.pc - 2, fault := ⟨true, cause, s.pc - 2, encode i, addr⟩ }

/-- The fault R233 gives the handler of an instruction in a state: its cause and what `fault_addr` records. -/
def faultDue (i : Instr) (s : State) : Option (FaultCause × Nat) :=
  match i with
  | .drw _ _ n =>
    if 0 < n.toNat ∧ 0xFFF < s.i.toNat + (n.toNat - 1) then some (.readOutOfBounds, max s.i.toNat 0x1000) else none
  | .ldLoad x => if 0xFFF < s.i.toNat + x.val then some (.readOutOfBounds, max s.i.toNat 0x1000) else none
  | .ldB _ => if 0xFFF < s.i.toNat + 2 then some (.writeOutOfBounds, max s.i.toNat 0x1000) else none
  | .ldStore x => if 0xFFF < s.i.toNat + x.val then some (.writeOutOfBounds, max s.i.toNat 0x1000) else none
  | .call _ => if s.sp.val = 16 then some (.stackOverflow, 16) else none
  | .ret _ => if s.sp.val = 0 then some (.stackUnderflow, 0) else none
  | .skp x _ => if 0xF < (s.reg x).toNat then some (.keyIndexOutOfRange, (s.reg x).toNat) else none
  | .sknp x _ => if 0xF < (s.reg x).toNat then some (.keyIndexOutOfRange, (s.reg x).toNat) else none
  | _ => none

/-- `t` has the result in V[x] and the flag in VF, in the order of `VF_ORDER` where x is VF (R107), and every other
register as `s` has it. -/
def ResultAndFlag (s t : State) (x : Reg) (result flag : Byte) : Prop :=
  (x ≠ 15 → t.reg x = result ∧ t.reg 15 = flag) ∧
  (x = 15 → t.reg 15 = match s.cfg.vfOrder with | .flagLast => flag | .resultLast => result) ∧
  ∀ r : Reg, r ≠ x → r ≠ 15 → t.reg r = s.reg r

/-- Cell `c` is the target of a set bit of the `n`-row sprite at I, drawn at (V[x], V[y]) (R171, R172). -/
def SpriteHits (s : State) (x y : Reg) (n : Nat) (c : Fin fbSize) : Prop :=
  ∃ row < n, ∃ col < 8, (s.readByte (s.i.toNat + row)).getLsbD (7 - col) = true ∧
    c.val = ((s.reg y).toNat + row) % 32 * 64 + ((s.reg x).toNat + col) % 64

/-- The registers an instruction may write (R22, R23). -/
def Instr.mayWrite : Instr → Reg → Prop
  | .ldImm x _, r | .addImm x _, r | .ldReg x _, r | .or x _, r | .and x _, r | .xor x _, r | .rnd x _, r
  | .ldVxDt x, r | .ldVxK x, r => r = x
  | .addReg x _, r | .sub x _, r | .shr x _, r | .subn x _, r | .shl x _, r => r = x ∨ r = 15
  | .drw _ _ _, r => r = 15
  | .ldLoad x, r => r.val ≤ x.val
  | _, _ => False

/-- What `initialize` leaves in every piece of state, `cfg` being the configuration (the table of R46). -/
structure AfterInitialize (cfg : Config) (t : State) : Prop where
  font : ∀ d : Fin 80, t.readByte (0x050 + d.val) = cfg.font[d]
  zeroed : ∀ a : Nat, a ≤ 0xFFF → a < 0x050 ∨ 0x09F < a → t.readByte a = 0x00
  regs : ∀ r : Reg, t.reg r = 0x00
  index : t.i = 0x0000
  pc : t.pc = 0x0200
  stack : ∀ j : Fin 16, t.stack[j] = 0x0000
  sp : t.sp = 0
  dt : t.dt = 0
  st : t.st = 0
  display : ∀ c : Fin fbSize, t.fb[c] = 0x00
  keys : ∀ k : Fin 16, t.key[k] = false
  fault : t.fault = ⟨false, .none, 0, 0, 0⟩
  config : t.cfg = cfg

/-! ## Invariants (R48) -/

/-- Every frame-buffer cell is 0x00 or 0xFF (R35). -/
def State.displayLegal (s : State) : Prop := ∀ c : Fin fbSize, s.fb[c] = 0x00 ∨ s.fb[c] = 0xFF

/-- The fault status of a core that has not faulted is the one of reset, and a faulted core has a cause (R38, R48). -/
def State.faultLegal (s : State) : Prop :=
  if s.fault.faulted then s.fault.cause ≠ .none else s.fault = FaultStatus.clear

/-- The invariant: memory canonical and inside the address space, the frame buffer and the fault status legal. The
ranges of the registers and of SP (R48) are in their types. -/
def State.Inv (s : State) : Prop := Memory.wf s.cfg.font s.mem ∧ s.displayLegal ∧ s.faultLegal

/-! ## Ends of a run (R254) -/

/-- A bad end: the core has faulted. -/
def State.halted (s : State) : Prop := s.fault.faulted = true

/-- A good end: the word at PC, both bytes inside memory, is `JP PC`. -/
def State.idle (s : State) : Prop :=
  s.fault.faulted = false ∧ s.pc.toNat ≤ 0xFFE ∧
  s.readByte s.pc.toNat = 0x10 ||| (s.pc.extractLsb' 8 4).setWidth 8 ∧
  s.readByte (s.pc.toNat + 1) = s.pc.extractLsb' 0 8

end Sys2Proof.Machine
end

