-- ==== Sys2Proof/Certificates/Slice0/Obligations.lean ====
section
/-! DEFINITION. The statements for the provers, file by file of the spec. `exec i s` is run on the state after the PC
advance, as the rules' pseudocode is (40_engine.md R111), so `s.pc` is the fetch address + 2. -/

open Sys2Proof Sys2Proof.Machine

/-! ## 10_state.md, 70_reset_and_hazards.md: reset, load, invariants -/

/-- R46, R260: the value of every piece of state after initialize, for every configuration, and at `State.reset`. -/
def Obligations.InitializeLeavesResetValues : Prop :=
  (∀ s : State, AfterInitialize s.cfg s.init) ∧ AfterInitialize State.reset.cfg State.reset

/-- R263, R264, R265: load copies the bytes verbatim to 0x200 on, or reports why it does not and changes nothing. -/
def Obligations.LoadCopiesVerbatimOrChangesNothing : Prop :=
  (∀ s : State, s.load none = (.unavailable, s)) ∧
  (∀ (s : State) (bytes : List Byte), 3584 < bytes.length → s.load (some bytes) = (.tooLarge, s)) ∧
  (∀ (s : State) (bytes : List Byte), s = s.init → bytes.length ≤ 3584 →
    ∃ t, s.load (some bytes) = (.ok, t) ∧
      (∀ (k : Nat) (h : k < bytes.length), t.readByte (0x200 + k) = bytes[k]) ∧
      (∀ a : Nat, a < 0x200 ∨ 0x200 + bytes.length ≤ a → t.readByte a = s.readByte a) ∧
      UnchangedBut [.memory] s t)

/-- The invariant (memory canonical, frame-buffer cells 0x00 or 0xFF, the fault status legal; 10_state.md R48, which the
spec marks as derived) holds at reset. -/
def Obligations.InvariantHoldsAtReset : Prop := State.reset.Inv

/-- Every step keeps the invariant, from every state that meets it. -/
def Obligations.EveryStepKeepsInvariant : Prop :=
  ∀ s t : State, s.Inv → step s = .next t → t.Inv

/-- So does every move of the host (60_exceptions.md R250). -/
def Obligations.HostMovesKeepInvariant : Prop :=
  ∀ s t : State, s.Inv → HostMove s t → t.Inv

/-- R47: the configuration is changed by no step, by no instruction and by no host move, initialize included. -/
def Obligations.ConfigurationIsFixed : Prop :=
  (∀ s t : State, step s = .next t → t.cfg = s.cfg) ∧
  (∀ (i : Instr) (s t : State), exec i s = .next t → t.cfg = s.cfg) ∧
  (∀ s t : State, HostMove s t → t.cfg = s.cfg)

/-- The key bitmap (10_state.md section 8, 44_keys_timers.md section 3): no instruction writes it, and only SKP, SKNP and
LD Vx,K read it: for every other instruction, other keys change nothing of the outcome but the keys themselves. -/
def Obligations.KeysAreReadByThreeAndWrittenByNone : Prop :=
  (∀ s t : State, step s = .next t → t.key = s.key) ∧
  (∀ (i : Instr) (s : State) (k : Vector Bool 16), i.handler ≠ .skp → i.handler ≠ .sknp → i.handler ≠ .ldVxK →
    exec i { s with key := k } = mapNext (fun t => { t with key := k }) (exec i s))

/-- Who writes which register (10_state.md sections 2, 5 and 7): a general register changes only by its named writers, I
by LD I, ADD I, LD F and, with BLOCK_INC_I, the block pair, DT by LD DT,Vx and ST by LD ST,Vx (the tick is no handler's),
PC by a transfer, a skip, the key-wait or a fault's restoring of it. -/
def Obligations.RegistersChangeOnlyByTheirWriters : Prop :=
  ∀ (i : Instr) (s t : State), exec i s = .next t →
    (∀ r : Reg, t.reg r ≠ s.reg r → Instr.mayWrite i r) ∧
    (t.i ≠ s.i → i.handler ∈ ([.ldI, .addI, .ldF] : List Handler) ∨
      (s.cfg.blockIncI = true ∧ i.handler ∈ ([.ldStore, .ldLoad] : List Handler))) ∧
    (t.dt ≠ s.dt → i.handler = .ldDtVx) ∧
    (t.st ≠ s.st → i.handler = .ldStVx) ∧
    (t.pc ≠ s.pc → faultDue i s ≠ none ∨ i.handler ∈ ([.ret, .jp, .call, .jpV0, .seImm, .sneImm, .seReg, .sneReg, .skp,
      .sknp, .ldVxK] : List Handler))

/-! ## 20_memory.md -/

/-- Memory's reach (20_memory.md section 1): but for DRW, LD B,Vx, LD [I],Vx and LD Vx,[I], a handler neither reads nor
writes memory (another memory changes nothing of the outcome but the memory), and DRW and LD Vx,[I] write none of it. -/
def Obligations.MemoryIsReachedByFourHandlersOnly : Prop :=
  (∀ (i : Instr) (s : State) (m : Memory),
    i.handler ∉ ([.drw, .ldB, .ldStore, .ldLoad] : List Handler) →
    exec i { s with mem := m } = mapNext (fun t => { t with mem := m }) (exec i s)) ∧
  (∀ (i : Instr) (s t : State), i.handler ∉ ([.ldB, .ldStore] : List Handler) → exec i s = .next t → t.mem = s.mem)

/-- R58: the fetch faults exactly when PC > 0xFFE, before any state change; it never wraps. -/
def Obligations.FetchFaultsExactlyPastFFE : Prop :=
  (∀ s : State, s.fault.faulted = false → 0xFFE < s.pc.toNat →
    step s = .next { s with fault := ⟨true, .fetchOutOfBounds, s.pc, 0, s.pc⟩ }) ∧
  (∀ s t : State, s.fault.faulted = false → step s = .next t → s.pc.toNat ≤ 0xFFE →
    t.fault.faulted = true → t.fault.cause ≠ .fetchOutOfBounds)

/-- Self-modifying code (20_memory.md section 3): what LD [I],Vx stores over the next instruction is what the next cycle
fetches. -/
def Obligations.StoreIsSeenByTheNextFetch : Prop :=
  ∀ (s : State) (x : Reg), Memory.wf s.cfg.font s.mem → s.fault.faulted = false → decode s.fetchWord = .ldStore x →
    1 ≤ x.val → s.pc.toNat ≤ 0xFFE → s.i = s.pc + 2 → s.i.toNat + x.val ≤ 0xFFF →
    ∃ t, step s = .next t ∧ t.pc = s.pc + 2 ∧ t.fetchWord = wordOfBytes (s.reg 0) (s.reg 1)

/-! ## 30_encoding.md -/

/-- Words written out from the table of R80 and from test vector V-L2-E2, with what they stand for, and the byte order. -/
def Obligations.TheseWordsDecodeAsTheSpecWritesThem : Prop :=
  decode 0x00E0 = .cls 0x0E ∧ decode 0x0000 = .cls 0x00 ∧ decode 0x0123 = .nop 0x0123 ∧ decode 0x00EE = .ret 0x0E ∧
  decode 0x1234 = .jp 0x234 ∧ decode 0x2300 = .call 0x300 ∧ decode 0x3342 = .seImm 3 0x42 ∧
  decode 0x5121 = .seReg 1 2 1 ∧ decode 0x71FF = .addImm 1 0xFF ∧ decode 0x8124 = .addReg 1 2 ∧
  decode 0x8008 = .nop 0x8008 ∧ decode 0x9AB7 = .sneReg 10 11 7 ∧ decode 0xA2F0 = .ldI 0x2F0 ∧
  decode 0xB234 = .jpV0 0x234 ∧ decode 0xD125 = .drw 1 2 5 ∧ decode 0xE19E = .skp 1 9 ∧ decode 0xE5F1 = .sknp 5 15 ∧
  decode 0xF165 = .ldLoad 1 ∧ decode 0xF129 = .ldF 1 ∧ decode 0xF0FF = .nop 0xF0FF ∧
  decodeBytes [0x12, 0x34] = .ok (.jp 0x234, []) ∧ decodeBytes [0x12] = .error .truncated

/-- R80: decoding is total and the handler is that of the first matching row of the table; the rows but the last are
pairwise disjoint. -/
def Obligations.DecodingFollowsTheTable : Prop :=
  (∀ op : Word, ((opcodeRows ++ [nopRow]).find? fun r => r.matches op).map OpcodeRow.handler =
    some (decode op).handler) ∧
  opcodeRows.Pairwise fun r q => ∀ op : Word, ¬ (r.matches op = true ∧ q.matches op = true)

/-- Decoding the word of a well-formed instruction gives it back, with every operand at every value. That an instruction
has its row's ignored bits among its operands is the model's choice (log 5, DESIGN CHOICE). -/
def Obligations.DecodeOfEncodeIsTheInstruction : Prop :=
  ∀ i : Instr, i.wellFormed = true → decode (encode i) = i

/-- Encoding what a word decodes to gives the word back. That the ignored bits come back is the model's choice (log 5,
DESIGN CHOICE: an instruction keeps them, so that a fault can record the opcode), no rule of the spec: R86 has an encoder
that builds a word write the canonical bits there. -/
def Obligations.EncodeOfDecodeIsTheWord : Prop :=
  ∀ op : Word, encode (decode op) = op ∧ (decode op).wellFormed = true

/-- The no-op encodings, exhaustively (30_encoding.md R84, which the spec marks as derived). -/
def Obligations.NoOpWordsAreExactlyTheUnpopulatedSlots : Prop :=
  ∀ op : Word, decode op = .nop op ↔
    (Op.family op = 0x0 ∧ Op.n op ≠ 0x0 ∧ Op.n op ≠ 0xE) ∨
    (Op.family op = 0x8 ∧ (0x8 ≤ (Op.n op).toNat ∧ (Op.n op).toNat ≤ 0xD ∨ Op.n op = 0xF)) ∨
    (Op.family op = 0xE ∧ (Op.n op = 0x0 ∨ 0x2 ≤ (Op.n op).toNat ∧ (Op.n op).toNat ≤ 0xD ∨ Op.n op = 0xF)) ∨
    (Op.family op = 0xF ∧
      Op.kk op ∉ ([0x07, 0x0A, 0x15, 0x18, 0x1E, 0x29, 0x33, 0x55, 0x65] : List Byte))

/-! ## 40_engine.md, 60_exceptions.md: the cycle and its faults -/

/-- R100, R101, R102: the cycle. A faulted core returns; a fetch past 0xFFE faults; else the big-endian word at PC is
decoded and its instruction runs on the state with PC + 2, and the tick follows unless the handler raised. -/
def Obligations.StepRunsTheDecodedInstruction : Prop :=
  ∀ s : State,
    (s.fault.faulted = true → step s = .next s) ∧
    (s.fault.faulted = false → 0xFFE < s.pc.toNat →
      step s = .next { s with fault := ⟨true, .fetchOutOfBounds, s.pc, 0, s.pc⟩ }) ∧
    (s.fault.faulted = false → s.pc.toNat ≤ 0xFFE → ∀ i : Instr,
      decode ((s.readByte s.pc.toNat).setWidth 16 <<< 8 ||| (s.readByte (s.pc.toNat + 1)).setWidth 16) = i →
      step s = match exec i { s with pc := s.pc + 2 } with
        | .next t => .next (if t.fault.faulted then t else t.tick)
        | .fault r => .fault r
        | .refused r => .refused r)

/-- What the model's placing of an instruction is for (log 8): the next step runs exactly the placed word. -/
def Obligations.PlacedWordIsRunNext : Prop :=
  ∀ (s : State) (w : Nat), Memory.wf s.cfg.font s.mem → w < 2 ^ 16 →
    (s.withFetchWord 16 w).fault.faulted = false ∧ (s.withFetchWord 16 w).pc.toNat ≤ 0xFFE ∧
    (s.withFetchWord 16 w).fetchWord = BitVec.ofNat 16 w ∧
    decodeTableWord 16 w = some (decode (s.withFetchWord 16 w).fetchWord)

/-- R105: the tick after a completed handler: each timer down by 1 if above 0, in every completed cycle of coupled mode
and in the strobed ones of external mode; a faulting handler is followed by none. -/
def Obligations.TickFollowsEveryCompletedHandler : Prop :=
  ∀ s u : State, s.fault.faulted = false → s.pc.toNat ≤ 0xFFE →
    exec (decode s.fetchWord) { s with pc := s.pc + 2 } = .next u →
    (u.fault.faulted = true → step s = .next u) ∧
    (u.fault.faulted = false → ∃ t, step s = .next t ∧
      (if s.cfg.timerMode = .coupled ∨ Config.timerStrobe u.strobes = true
        then t.dt.toNat = u.dt.toNat - 1 ∧ t.st.toNat = u.st.toNat - 1
        else t.dt = u.dt ∧ t.st = u.st) ∧
      UnchangedBut [.delay, .sound, .strobes] u t)

/-- R109: a cycle of a faulted core changes nothing, and of the host's moves only initialize clears the fault. -/
def Obligations.FaultedCoreStaysHaltedUntilInitialize : Prop :=
  (∀ s : State, s.fault.faulted = true → step s = .next s) ∧
  (∀ s t : State, HostMove s t → s.fault.faulted = true → t.fault.faulted = false → t = s.init) ∧
  (∀ s : State, s.init.fault.faulted = false)

/-- R232: a cycle that faults leaves the state before it with only the fault status written: the cause, the PC of the
faulting instruction, its opcode (0 for a fetch fault). -/
def Obligations.FaultingCycleIsDiscarded : Prop :=
  ∀ s t : State, s.fault.faulted = false → step s = .next t → t.fault.faulted = true →
    ∃ (cause : FaultCause) (addr : Word), cause ≠ .none ∧
      t = { s with fault := ⟨true, cause, s.pc, if cause = .fetchOutOfBounds then 0 else s.fetchWord, addr⟩ } ∧
      (cause = .fetchOutOfBounds ∧ addr = s.pc ∧ 0xFFE < s.pc.toNat ∨
       s.pc.toNat ≤ 0xFFE ∧ ∃ a : Nat, faultDue (decode s.fetchWord) { s with pc := s.pc + 2 } = some (cause, a) ∧
         addr = BitVec.ofNat 16 a)

/-- R233: which instruction raises which cause, when, and what `fault_addr` records; nothing else faults; the codes. -/
def Obligations.CausesAreRaisedExactlyAsTabulated : Prop :=
  (∀ (i : Instr) (s : State),
    match faultDue i s with
    | none => ∃ t, exec i s = .next t ∧ t.fault = s.fault
    | some (cause, a) => FaultsAs i s cause (BitVec.ofNat 16 a)) ∧
  (∀ s : State, s.fault.faulted = false → 0xFFE < s.pc.toNat →
    step s = .next { s with fault := ⟨true, .fetchOutOfBounds, s.pc, 0, s.pc⟩ }) ∧
  FaultCause.code .none = 0 ∧ FaultCause.code .fetchOutOfBounds = 1 ∧ FaultCause.code .readOutOfBounds = 2 ∧
  FaultCause.code .writeOutOfBounds = 3 ∧ FaultCause.code .stackOverflow = 4 ∧ FaultCause.code .stackUnderflow = 5 ∧
  FaultCause.code .keyIndexOutOfRange = 6

/-- Every cycle gives a next state (00_scope.md section 7: total, no refusal inside the model), and every handler too. -/
def Obligations.EveryCycleAnswersANextState : Prop :=
  (∀ s : State, ∃ t, step s = .next t) ∧ ∀ (i : Instr) (s : State), ∃ t, exec i s = .next t

/-- R108: the no-op handler does nothing, and every word no other row of the table matches runs it; its cycle still
fetches, advances PC and ticks. -/
def Obligations.NoOpDoesNothing : Prop :=
  (∀ (w : Word) (s : State), exec (.nop w) s = .next s) ∧
  (∀ (op : Word) (s : State), (∀ r ∈ opcodeRows, op &&& r.mask ≠ r.pat) → exec (decode op) s = .next s) ∧
  (∀ s : State, s.fault.faulted = false → s.pc.toNat ≤ 0xFFE → (∀ r ∈ opcodeRows, s.fetchWord &&& r.mask ≠ r.pat) →
    step s = .next (State.tick { s with pc := s.pc + 2 }))

/-- The idle end (60_exceptions.md section 7): a self-jump repeats, changing nothing but the timers. -/
def Obligations.IdleLoopChangesOnlyTheTimers : Prop :=
  ∀ s : State, s.idle → ∃ t, step s = .next t ∧ t.idle ∧ UnchangedBut [.delay, .sound, .strobes] s t

/-! ## 41_flow.md -/

/-- R121: RET pops the PC, or faults on an empty stack. -/
def Obligations.RetPopsThePc : Prop :=
  EncodedAs 0xF00F 0x000E (fun op => .ret (Op.ign8 op)) ∧
  (∀ (g : Byte) (s : State), s.sp ≠ 0 →
    ∃ t, exec (.ret g) s = .next t ∧ t.sp.val = s.sp.val - 1 ∧ some t.pc = s.stack[s.sp.val - 1]? ∧
      t.stack = s.stack ∧ UnchangedBut [.pc, .stack] s t) ∧
  (∀ (g : Byte) (s : State), s.sp = 0 → FaultsAs (.ret g) s .stackUnderflow 0)

/-- R122, R124: JP sets PC to the address; JP V0 to V0 + nnn, not reduced modulo 0x1000. -/
def Obligations.JumpsSetThePc : Prop :=
  EncodedAs 0xF000 0x1000 (fun op => .jp (Op.nnn op)) ∧ EncodedAs 0xF000 0xB000 (fun op => .jpV0 (Op.nnn op)) ∧
  ∀ (nnn : Addr12) (s : State),
    (∃ t, exec (.jp nnn) s = .next t ∧ t.pc.toNat = nnn.toNat ∧ UnchangedBut [.pc] s t) ∧
    (∃ t, exec (.jpV0 nnn) s = .next t ∧ t.pc.toNat = (s.reg 0).toNat + nnn.toNat ∧ UnchangedBut [.pc] s t)

/-- R123: CALL pushes the PC of the next instruction and jumps, or faults on a full stack. -/
def Obligations.CallPushesThePc : Prop :=
  EncodedAs 0xF000 0x2000 (fun op => .call (Op.nnn op)) ∧
  (∀ (nnn : Addr12) (s : State), s.sp.val < 16 →
    ∃ t, exec (.call nnn) s = .next t ∧ t.sp.val = s.sp.val + 1 ∧ t.pc.toNat = nnn.toNat ∧
      (∀ j : Fin 16, t.stack[j] = if j.val = s.sp.val then s.pc else s.stack[j]) ∧ UnchangedBut [.pc, .stack] s t) ∧
  (∀ (nnn : Addr12) (s : State), s.sp.val = 16 → FaultsAs (.call nnn) s .stackOverflow 16)

/-- Call and return (41_flow.md R126, which the spec marks as derived): after a CALL and any code that leaves SP and its
slot as they are, RET resumes after the call with SP as before it. -/
def Obligations.RetResumesAfterTheCall : Prop :=
  ∀ (nnn : Addr12) (g : Byte) (s t u : State), s.sp.val < 16 → exec (.call nnn) s = .next t →
    u.sp = t.sp → u.stack[s.sp.val]? = t.stack[s.sp.val]? →
    ∃ w, exec (.ret g) u = .next w ∧ w.pc = s.pc ∧ w.sp = s.sp

/-- R127, R128, R129, R130: the compare-and-skip instructions; nothing but PC changes. -/
def Obligations.CompareSkipsAddTwo : Prop :=
  EncodedAs 0xF000 0x3000 (fun op => .seImm (Op.x op) (Op.kk op)) ∧
  EncodedAs 0xF000 0x4000 (fun op => .sneImm (Op.x op) (Op.kk op)) ∧
  EncodedAs 0xF000 0x5000 (fun op => .seReg (Op.x op) (Op.y op) (Op.n op)) ∧
  EncodedAs 0xF000 0x9000 (fun op => .sneReg (Op.x op) (Op.y op) (Op.n op)) ∧
  ∀ (x y : Reg) (kk : Byte) (g : BitVec 4) (s : State),
    (∃ t, exec (.seImm x kk) s = .next t ∧ t.pc = (if s.reg x = kk then s.pc + 2 else s.pc) ∧ UnchangedBut [.pc] s t) ∧
    (∃ t, exec (.sneImm x kk) s = .next t ∧ t.pc = (if s.reg x = kk then s.pc else s.pc + 2) ∧
      UnchangedBut [.pc] s t) ∧
    (∃ t, exec (.seReg x y g) s = .next t ∧ t.pc = (if s.reg x = s.reg y then s.pc + 2 else s.pc) ∧
      UnchangedBut [.pc] s t) ∧
    (∃ t, exec (.sneReg x y g) s = .next t ∧ t.pc = (if s.reg x = s.reg y then s.pc else s.pc + 2) ∧
      UnchangedBut [.pc] s t)

/-- R134: but for CALL and RET no handler reads or writes a stack slot or SP (another stack changes nothing of the
outcome but the stack), and RET leaves the slots the view shows as they are. -/
def Obligations.StackIsReachedByCallAndRetOnly : Prop :=
  (∀ (i : Instr) (s : State) (k : Vector Word 16) (p : Fin 17), i.handler ≠ .call → i.handler ≠ .ret →
    exec i { s with stack := k, sp := p } = mapNext (fun t => { t with stack := k, sp := p }) (exec i s)) ∧
  (∀ (g : Byte) (s t : State), exec (.ret g) s = .next t → t.view.stack = s.stack)

/-! ## 42_alu.md -/

/-- R141, R142, R143: loads of an immediate and of a register, and the add without carry; no other register changes. -/
def Obligations.LoadsAndAddImmediateWriteVxOnly : Prop :=
  EncodedAs 0xF000 0x6000 (fun op => .ldImm (Op.x op) (Op.kk op)) ∧
  EncodedAs 0xF000 0x7000 (fun op => .addImm (Op.x op) (Op.kk op)) ∧
  EncodedAs 0xF00F 0x8000 (fun op => .ldReg (Op.x op) (Op.y op)) ∧
  ∀ (x y : Reg) (kk : Byte) (s : State),
    (∃ t, exec (.ldImm x kk) s = .next t ∧ t.reg x = kk ∧ (∀ r : Reg, r ≠ x → t.reg r = s.reg r) ∧
      UnchangedBut [.regs] s t) ∧
    (∃ t, exec (.addImm x kk) s = .next t ∧ (t.reg x).toNat = ((s.reg x).toNat + kk.toNat) % 256 ∧
      (∀ r : Reg, r ≠ x → t.reg r = s.reg r) ∧ UnchangedBut [.regs] s t) ∧
    (∃ t, exec (.ldReg x y) s = .next t ∧ t.reg x = s.reg y ∧ (∀ r : Reg, r ≠ x → t.reg r = s.reg r) ∧
      UnchangedBut [.regs] s t)

/-- R144, R145, R146: the bitwise operations write Vx and no other register, VF included. -/
def Obligations.LogicWritesVxOnly : Prop :=
  EncodedAs 0xF00F 0x8001 (fun op => .or (Op.x op) (Op.y op)) ∧
  EncodedAs 0xF00F 0x8002 (fun op => .and (Op.x op) (Op.y op)) ∧
  EncodedAs 0xF00F 0x8003 (fun op => .xor (Op.x op) (Op.y op)) ∧
  ∀ (x y : Reg) (s : State),
    (∃ t, exec (.or x y) s = .next t ∧ t.reg x = s.reg x ||| s.reg y ∧ (∀ r : Reg, r ≠ x → t.reg r = s.reg r) ∧
      UnchangedBut [.regs] s t) ∧
    (∃ t, exec (.and x y) s = .next t ∧ t.reg x = s.reg x &&& s.reg y ∧ (∀ r : Reg, r ≠ x → t.reg r = s.reg r) ∧
      UnchangedBut [.regs] s t) ∧
    (∃ t, exec (.xor x y) s = .next t ∧ t.reg x = s.reg x ^^^ s.reg y ∧ (∀ r : Reg, r ≠ x → t.reg r = s.reg r) ∧
      UnchangedBut [.regs] s t)

/-- R147: ADD Vx,Vy keeps the low 8 bits of the sum and sets VF to the carry. -/
def Obligations.AddSetsVfToTheCarry : Prop :=
  EncodedAs 0xF00F 0x8004 (fun op => .addReg (Op.x op) (Op.y op)) ∧
  ∀ (x y : Reg) (s : State), ∃ t, exec (.addReg x y) s = .next t ∧
    ResultAndFlag s t x (BitVec.ofNat 8 (((s.reg x).toNat + (s.reg y).toNat) % 256))
      (if (s.reg x).toNat + (s.reg y).toNat > 255 then 1 else 0) ∧
    UnchangedBut [.regs] s t

/-- R148, R150: SUB and SUBN wrap modulo 256 and set VF to 1 exactly when the minuend is strictly greater. -/
def Obligations.SubtractsSetVfWhenStrictlyGreater : Prop :=
  EncodedAs 0xF00F 0x8005 (fun op => .sub (Op.x op) (Op.y op)) ∧
  EncodedAs 0xF00F 0x8007 (fun op => .subn (Op.x op) (Op.y op)) ∧
  ∀ (x y : Reg) (s : State),
    (∃ t, exec (.sub x y) s = .next t ∧
      ResultAndFlag s t x (BitVec.ofNat 8 (((s.reg x).toNat + 256 - (s.reg y).toNat) % 256))
        (if (s.reg x).toNat > (s.reg y).toNat then 1 else 0) ∧
      UnchangedBut [.regs] s t) ∧
    (∃ t, exec (.subn x y) s = .next t ∧
      ResultAndFlag s t x (BitVec.ofNat 8 (((s.reg y).toNat + 256 - (s.reg x).toNat) % 256))
        (if (s.reg y).toNat > (s.reg x).toNat then 1 else 0) ∧
      UnchangedBut [.regs] s t)

/-- R149, R151, R152: the shifts by one of the register SHIFT_SRC selects; VF is the bit shifted out. -/
def Obligations.ShiftsSetVfToTheBitShiftedOut : Prop :=
  EncodedAs 0xF00F 0x8006 (fun op => .shr (Op.x op) (Op.y op)) ∧
  EncodedAs 0xF00F 0x800E (fun op => .shl (Op.x op) (Op.y op)) ∧
  ∀ (x y : Reg) (s : State) (a : Byte), a = (match s.cfg.shiftSrc with | .vx => s.reg x | .vy => s.reg y) →
    (∃ t, exec (.shr x y) s = .next t ∧
      ResultAndFlag s t x (BitVec.ofNat 8 (a.toNat / 2)) (if a.getLsbD 0 then 1 else 0) ∧ UnchangedBut [.regs] s t) ∧
    (∃ t, exec (.shl x y) s = .next t ∧
      ResultAndFlag s t x (BitVec.ofNat 8 (a.toNat * 2 % 256)) (if a.getLsbD 7 then 1 else 0) ∧
      UnchangedBut [.regs] s t)

/-- VF_ORDER (40_engine.md section 2, decision D6) matters only where the destination is VF: with x ≠ VF both orders give
the same state. -/
def Obligations.VfOrderMattersOnlyForVf : Prop :=
  ∀ (x y : Reg) (s : State) (o : VfOrder), x ≠ 15 →
    ∀ i ∈ ([.addReg x y, .sub x y, .shr x y, .subn x y, .shl x y] : List Instr),
      exec i { s with cfg := { s.cfg with vfOrder := o } } =
        mapNext (fun t => { t with cfg := { s.cfg with vfOrder := o } }) (exec i s)

/-- R158: RND writes the draw ANDed with kk. The draw is the free value `Config.randByte` of this draw's number (log 2);
nothing is assumed of it. -/
def Obligations.RndMasksOneFreeDraw : Prop :=
  EncodedAs 0xF000 0xC000 (fun op => .rnd (Op.x op) (Op.kk op)) ∧
  ∀ (x : Reg) (kk : Byte) (s : State), ∃ t, exec (.rnd x kk) s = .next t ∧
    t.reg x = Config.randByte s.draws &&& kk ∧ t.draws = s.draws + 1 ∧ (∀ r : Reg, r ≠ x → t.reg r = s.reg r) ∧
    (∀ b : Nat, kk.getLsbD b = false → (t.reg x).getLsbD b = false) ∧ UnchangedBut [.regs, .draws] s t

/-- Only RND takes a draw (42_alu.md section 3): for every other instruction the draws to come change nothing of the
outcome, and none is taken. -/
def Obligations.OnlyRndTakesADraw : Prop :=
  ∀ (i : Instr) (s : State) (d : Nat), i.handler ≠ .rnd →
    exec i { s with draws := d } = mapNext (fun t => { t with draws := d }) (exec i s)

/-! ## 43_display.md -/

/-- R170: CLS sets every cell to off and changes nothing else. -/
def Obligations.ClsClearsEveryCell : Prop :=
  EncodedAs 0xF00F 0x0000 (fun op => .cls (Op.ign8 op)) ∧
  ∀ (g : Byte) (s : State), ∃ t, exec (.cls g) s = .next t ∧ (∀ c : Fin fbSize, t.fb[c] = 0x00) ∧
    UnchangedBut [.display] s t

/-- R171, R172: DRW XORs exactly the cells that set sprite bits target, with both coordinates wrapped, and sets VF to 1
exactly when one of them was on; a sprite that leaves memory faults. -/
def Obligations.DrawXorsTheTargetedCells : Prop :=
  EncodedAs 0xF000 0xD000 (fun op => .drw (Op.x op) (Op.y op) (Op.n op)) ∧
  (∀ (x y : Reg) (n : BitVec 4) (s : State), n = 0 ∨ s.i.toNat + (n.toNat - 1) ≤ 0xFFF →
    ∃ t, exec (.drw x y n) s = .next t ∧
      (∀ c : Fin fbSize, SpriteHits s x y n.toNat c → t.fb[c] = s.fb[c] ^^^ 0xFF) ∧
      (∀ c : Fin fbSize, ¬ SpriteHits s x y n.toNat c → t.fb[c] = s.fb[c]) ∧
      ((∃ c : Fin fbSize, SpriteHits s x y n.toNat c ∧ s.fb[c] = 0xFF) → t.reg 15 = 1) ∧
      ((¬ ∃ c : Fin fbSize, SpriteHits s x y n.toNat c ∧ s.fb[c] = 0xFF) → t.reg 15 = 0) ∧
      (∀ r : Reg, r ≠ 15 → t.reg r = s.reg r) ∧ UnchangedBut [.regs, .display] s t) ∧
  (∀ (x y : Reg) (n : BitVec 4) (s : State), n ≠ 0 → 0xFFF < s.i.toNat + (n.toNat - 1) →
    FaultsAs (.drw x y n) s .readOutOfBounds (BitVec.ofNat 16 (max s.i.toNat 0x1000)))

/-- R174: a sprite row past 0xFFF faults at the first such address; no cell and no VF change survives the cycle. -/
def Obligations.SpritePastMemoryFaultsAndDrawsNothing : Prop :=
  ∀ (x y : Reg) (n : BitVec 4) (s : State), s.fault.faulted = false → s.pc.toNat ≤ 0xFFE →
    decode s.fetchWord = .drw x y n → (∃ row : Nat, row < n.toNat ∧ 0xFFF < s.i.toNat + row) →
    step s = .next { s with
      fault := ⟨true, .readOutOfBounds, s.pc, s.fetchWord, BitVec.ofNat 16 (max s.i.toNat 0x1000)⟩ }

/-- R175: height 0 reads no memory, so it never faults, changes no cell and clears VF. -/
def Obligations.HeightZeroDrawsNothingAndClearsVf : Prop :=
  ∀ (x y : Reg) (s : State), ∃ t, exec (.drw x y 0) s = .next t ∧ t.reg 15 = 0 ∧
    (∀ r : Reg, r ≠ 15 → t.reg r = s.reg r) ∧ UnchangedBut [.regs] s t

/-- R176: but for CLS and DRW no handler reads or writes the frame buffer, and CLS does not read it. -/
def Obligations.DisplayIsReachedByClsAndDrwOnly : Prop :=
  (∀ (i : Instr) (s : State) (fb : Vector Byte fbSize), i.handler ≠ .cls → i.handler ≠ .drw →
    exec i { s with fb := fb } = mapNext (fun t => { t with fb := fb }) (exec i s)) ∧
  (∀ (g : Byte) (s : State) (fb : Vector Byte fbSize), exec (.cls g) { s with fb := fb } = exec (.cls g) s)

/-- The draw laws (43_display.md R177, which the spec marks as derived; log 13). Drawing the same sprite again at the same
place restores every cell: `u` is any state with the display of the first draw and the same sprite and coordinates. From
an all-off buffer the first draw sets VF to 0 and the second sets it to 1 exactly when the sprite has a set bit. -/
def Obligations.DrawingTwiceRestoresTheDisplay : Prop :=
  ∀ (x y : Reg) (n : BitVec 4) (s t u : State), faultDue (.drw x y n) s = none → exec (.drw x y n) s = .next t →
    u.fb = t.fb → u.i = s.i → u.reg x = s.reg x → u.reg y = s.reg y → (∀ a : Nat, u.readByte a = s.readByte a) →
    ∃ w, exec (.drw x y n) u = .next w ∧ w.fb = s.fb ∧
      ((∀ c : Fin fbSize, s.fb[c] = 0x00) → t.reg 15 = 0 ∧
        (w.reg 15 = 1 ↔ ∃ row < n.toNat, s.readByte (s.i.toNat + row) ≠ 0) ∧
        (w.reg 15 = 0 ↔ ∀ row < n.toNat, s.readByte (s.i.toNat + row) = 0))

/-! ## 44_keys_timers.md -/

/-- R180, R181, R182: the key skips, and the fault on a key index above 15. -/
def Obligations.KeySkipsTestTheNamedKey : Prop :=
  EncodedAs 0xF00F 0xE00E (fun op => .skp (Op.x op) (Op.mid op)) ∧
  EncodedAs 0xF00F 0xE001 (fun op => .sknp (Op.x op) (Op.mid op)) ∧
  (∀ (x : Reg) (g : BitVec 4) (s : State) (k : Fin 16), (s.reg x).toNat = k.val →
    (∃ t, exec (.skp x g) s = .next t ∧ t.pc = (if s.key[k] = true then s.pc + 2 else s.pc) ∧
      UnchangedBut [.pc] s t) ∧
    (∃ t, exec (.sknp x g) s = .next t ∧ t.pc = (if s.key[k] = true then s.pc else s.pc + 2) ∧
      UnchangedBut [.pc] s t)) ∧
  (∀ (x : Reg) (g : BitVec 4) (s : State), 0xF < (s.reg x).toNat →
    FaultsAs (.skp x g) s .keyIndexOutOfRange (BitVec.ofNat 16 (s.reg x).toNat) ∧
    FaultsAs (.sknp x g) s .keyIndexOutOfRange (BitVec.ofNat 16 (s.reg x).toNat))

/-- R183: the key-wait stores the lowest pressed key, or rewinds the PC when none is pressed. -/
def Obligations.KeyWaitTakesTheLowestPressedKey : Prop :=
  EncodedAs 0xF0FF 0xF00A (fun op => .ldVxK (Op.x op)) ∧
  (∀ (x : Reg) (s : State) (k : Fin 16), s.key[k] = true → (∀ j : Fin 16, j < k → s.key[j] = false) →
    ∃ t, exec (.ldVxK x) s = .next t ∧ (t.reg x).toNat = k.val ∧ (∀ r : Reg, r ≠ x → t.reg r = s.reg r) ∧
      UnchangedBut [.regs] s t) ∧
  (∀ (x : Reg) (s : State), (∀ j : Fin 16, s.key[j] = false) →
    ∃ t, exec (.ldVxK x) s = .next t ∧ t.pc = s.pc - 2 ∧ UnchangedBut [.pc] s t)

/-- A key-wait cycle (44_keys_timers.md R188, which the spec marks as derived): with no key pressed the PC stays and the
timers tick. -/
def Obligations.WaitingCycleKeepsPcAndTicks : Prop :=
  ∀ (s : State) (x : Reg), s.fault.faulted = false → s.pc.toNat ≤ 0xFFE → decode s.fetchWord = .ldVxK x →
    (∀ j : Fin 16, s.key[j] = false) → s.cfg.timerMode = .coupled →
    ∃ t, step s = .next t ∧ t.dt.toNat = s.dt.toNat - 1 ∧ t.st.toNat = s.st.toNat - 1 ∧
      UnchangedBut [.delay, .sound] s t

/-- R184, R185, R186: the timer loads, before the tick of the cycle; and, in coupled mode, with it. -/
def Obligations.TimerLoadsMoveOneByte : Prop :=
  EncodedAs 0xF0FF 0xF007 (fun op => .ldVxDt (Op.x op)) ∧ EncodedAs 0xF0FF 0xF015 (fun op => .ldDtVx (Op.x op)) ∧
  EncodedAs 0xF0FF 0xF018 (fun op => .ldStVx (Op.x op)) ∧
  ∀ (x : Reg) (s : State),
    (∃ t, exec (.ldVxDt x) s = .next t ∧ t.reg x = s.dt ∧ (∀ r : Reg, r ≠ x → t.reg r = s.reg r) ∧
      UnchangedBut [.regs] s t) ∧
    (∃ t, exec (.ldDtVx x) s = .next t ∧ t.dt = s.reg x ∧ UnchangedBut [.delay] s t) ∧
    (∃ t, exec (.ldStVx x) s = .next t ∧ t.st = s.reg x ∧ UnchangedBut [.sound] s t) ∧
    (s.fault.faulted = false → s.pc.toNat ≤ 0xFFE → s.cfg.timerMode = .coupled →
      (decode s.fetchWord = .ldVxDt x → ∃ t, step s = .next t ∧ t.reg x = s.dt ∧ t.dt.toNat = s.dt.toNat - 1) ∧
      (decode s.fetchWord = .ldDtVx x → ∃ t, step s = .next t ∧ t.dt.toNat = (s.reg x).toNat - 1) ∧
      (decode s.fetchWord = .ldStVx x → ∃ t, step s = .next t ∧ t.st.toNat = (s.reg x).toNat - 1))

/-- Timer decay in coupled mode (44_keys_timers.md R187, which the spec marks as derived): over one completed cycle each
timer goes down by 1, from the value the cycle wrote where its instruction sets that timer. -/
def Obligations.CoupledTimersGoDownOncePerCycle : Prop :=
  ∀ s t : State, s.fault.faulted = false → s.pc.toNat ≤ 0xFFE → s.cfg.timerMode = .coupled → step s = .next t →
    t.fault.faulted = false →
    ((decode s.fetchWord).handler ≠ .ldDtVx → t.dt.toNat = s.dt.toNat - 1) ∧
    ((decode s.fetchWord).handler ≠ .ldStVx → t.st.toNat = s.st.toNat - 1) ∧
    (∀ x : Reg, decode s.fetchWord = .ldDtVx x → t.dt.toNat = (s.reg x).toNat - 1) ∧
    (∀ x : Reg, decode s.fetchWord = .ldStVx x → t.st.toNat = (s.reg x).toNat - 1)

/-! ## 45_index_memory.md -/

/-- R201, R202, R204: the three instructions that compute I; VF is not written. -/
def Obligations.IndexInstructionsWriteIOnly : Prop :=
  EncodedAs 0xF000 0xA000 (fun op => .ldI (Op.nnn op)) ∧ EncodedAs 0xF0FF 0xF01E (fun op => .addI (Op.x op)) ∧
  EncodedAs 0xF0FF 0xF029 (fun op => .ldF (Op.x op)) ∧
  ∀ (nnn : Addr12) (x : Reg) (s : State),
    (∃ t, exec (.ldI nnn) s = .next t ∧ t.i.toNat = nnn.toNat ∧ UnchangedBut [.index] s t) ∧
    (∃ t, exec (.addI x) s = .next t ∧ t.i.toNat = (s.i.toNat + (s.reg x).toNat) % 65536 ∧
      UnchangedBut [.index] s t) ∧
    (∃ t, exec (.ldF x) s = .next t ∧ t.i.toNat = 0x050 + 5 * (s.reg x).toNat ∧ UnchangedBut [.index] s t)

/-- R205, R206: LD B stores the hundreds, tens and ones digits at I, I+1, I+2 and no other byte, or faults. -/
def Obligations.BcdStoresThreeDigits : Prop :=
  EncodedAs 0xF0FF 0xF033 (fun op => .ldB (Op.x op)) ∧
  (∀ (x : Reg) (s : State), Memory.wf s.cfg.font s.mem → s.i.toNat + 2 ≤ 0xFFF →
    ∃ t, exec (.ldB x) s = .next t ∧
      (t.readByte s.i.toNat).toNat = (s.reg x).toNat / 100 ∧
      (t.readByte (s.i.toNat + 1)).toNat = (s.reg x).toNat / 10 % 10 ∧
      (t.readByte (s.i.toNat + 2)).toNat = (s.reg x).toNat % 10 ∧
      (∀ a : Nat, a < s.i.toNat ∨ s.i.toNat + 2 < a → t.readByte a = s.readByte a) ∧ UnchangedBut [.memory] s t) ∧
  (∀ (x : Reg) (s : State), 0xFFF < s.i.toNat + 2 →
    FaultsAs (.ldB x) s .writeOutOfBounds (BitVec.ofNat 16 (max s.i.toNat 0x1000)))

/-- R207, R208: LD [I],Vx stores V0..Vx at I.. and no other byte; I advances by x + 1 exactly with BLOCK_INC_I. -/
def Obligations.BlockStoreWritesV0ToVx : Prop :=
  EncodedAs 0xF0FF 0xF055 (fun op => .ldStore (Op.x op)) ∧
  (∀ (x : Reg) (s : State), Memory.wf s.cfg.font s.mem → s.i.toNat + x.val ≤ 0xFFF →
    ∃ t, exec (.ldStore x) s = .next t ∧
      (∀ r : Reg, r ≤ x → t.readByte (s.i.toNat + r.val) = s.reg r) ∧
      (∀ a : Nat, a < s.i.toNat ∨ s.i.toNat + x.val < a → t.readByte a = s.readByte a) ∧
      t.i = (if s.cfg.blockIncI = true then s.i + BitVec.ofNat 16 (x.val + 1) else s.i) ∧
      UnchangedBut [.memory, .index] s t) ∧
  (∀ (x : Reg) (s : State), 0xFFF < s.i.toNat + x.val →
    FaultsAs (.ldStore x) s .writeOutOfBounds (BitVec.ofNat 16 (max s.i.toNat 0x1000)))

/-- R207, R209: LD Vx,[I] loads V0..Vx from I.. and no other register; I advances by x + 1 exactly with BLOCK_INC_I. -/
def Obligations.BlockLoadReadsV0ToVx : Prop :=
  EncodedAs 0xF0FF 0xF065 (fun op => .ldLoad (Op.x op)) ∧
  (∀ (x : Reg) (s : State), s.i.toNat + x.val ≤ 0xFFF →
    ∃ t, exec (.ldLoad x) s = .next t ∧
      (∀ r : Reg, r ≤ x → t.reg r = s.readByte (s.i.toNat + r.val)) ∧
      (∀ r : Reg, x < r → t.reg r = s.reg r) ∧
      t.i = (if s.cfg.blockIncI = true then s.i + BitVec.ofNat 16 (x.val + 1) else s.i) ∧
      UnchangedBut [.regs, .index] s t) ∧
  (∀ (x : Reg) (s : State), 0xFFF < s.i.toNat + x.val →
    FaultsAs (.ldLoad x) s .readOutOfBounds (BitVec.ofNat 16 (max s.i.toNat 0x1000)))

/-- R210: a block transfer past 0xFFF faults at the first such address, and the whole cycle is discarded. -/
def Obligations.BlockPastMemoryIsDiscarded : Prop :=
  ∀ (x : Reg) (s : State), s.fault.faulted = false → s.pc.toNat ≤ 0xFFE → 0xFFF < s.i.toNat + x.val →
    (decode s.fetchWord = .ldStore x → step s = .next { s with
      fault := ⟨true, .writeOutOfBounds, s.pc, s.fetchWord, BitVec.ofNat 16 (max s.i.toNat 0x1000)⟩ }) ∧
    (decode s.fetchWord = .ldLoad x → step s = .next { s with
      fault := ⟨true, .readOutOfBounds, s.pc, s.fetchWord, BitVec.ofNat 16 (max s.i.toNat 0x1000)⟩ })
end

