-- ==== Sys2Proof/Laws/Decode.lean ====
section
/-! SUPPORT. Decoding: the fields of a packed word, a word put together again from its fields, and what a mask of the
decode table fixes. -/

namespace Sys2Proof

/-! ## Fields of packed words -/

section
variable (f a b c : BitVec 4) (k : Byte) (nnn : Addr12)

@[simp] theorem family_packNibbles : Op.family (packNibbles f a b c) = f := by
  unfold Op.family packNibbles
  ext i hi
  simp only [BitVec.getElem_extractLsb', BitVec.getLsbD_append]
  interval_cases i <;> simp [BitVec.getLsbD_eq_getElem]

@[simp] theorem x_packNibbles (x : Reg) : Op.x (packNibbles f x.bits b c) = x := by
  have : (packNibbles f x.bits b c).extractLsb' 8 4 = x.bits := by
    unfold packNibbles
    ext i hi
    simp only [BitVec.getElem_extractLsb', BitVec.getLsbD_append]
    interval_cases i <;> simp [BitVec.getLsbD_eq_getElem]
  rw [Op.x, this]; rfl

@[simp] theorem mid_packNibbles : Op.mid (packNibbles f a b c) = b := by
  unfold Op.mid packNibbles
  ext i hi
  simp only [BitVec.getElem_extractLsb', BitVec.getLsbD_append]
  interval_cases i <;> simp [BitVec.getLsbD_eq_getElem]

@[simp] theorem y_packNibbles (y : Reg) : Op.y (packNibbles f a y.bits c) = y := by
  have : (packNibbles f a y.bits c).extractLsb' 4 4 = y.bits := mid_packNibbles f a y.bits c
  rw [Op.y, this]; rfl

@[simp] theorem n_packNibbles : Op.n (packNibbles f a b c) = c := by
  unfold Op.n packNibbles
  ext i hi
  simp only [BitVec.getElem_extractLsb', BitVec.getLsbD_append]
  interval_cases i <;> simp [BitVec.getLsbD_eq_getElem]

@[simp] theorem family_packByte : Op.family (packByte f a k) = f := by
  unfold Op.family packByte
  ext i hi
  simp only [BitVec.getElem_extractLsb', BitVec.getLsbD_append]
  interval_cases i <;> simp [BitVec.getLsbD_eq_getElem]

@[simp] theorem x_packByte (x : Reg) : Op.x (packByte f x.bits k) = x := by
  have : (packByte f x.bits k).extractLsb' 8 4 = x.bits := by
    unfold packByte
    ext i hi
    simp only [BitVec.getElem_extractLsb', BitVec.getLsbD_append]
    interval_cases i <;> simp [BitVec.getLsbD_eq_getElem]
  rw [Op.x, this]; rfl

@[simp] theorem kk_packByte : Op.kk (packByte f a k) = k := by
  unfold Op.kk packByte
  ext i hi
  simp only [BitVec.getElem_extractLsb', BitVec.getLsbD_append]
  interval_cases i <;> simp [BitVec.getLsbD_eq_getElem]

@[simp] theorem family_packAddr : Op.family (packAddr f nnn) = f := by
  unfold Op.family packAddr
  ext i hi
  simp only [BitVec.getElem_extractLsb', BitVec.getLsbD_append]
  interval_cases i <;> simp [BitVec.getLsbD_eq_getElem]

@[simp] theorem nnn_packAddr : Op.nnn (packAddr f nnn) = nnn := by
  unfold Op.nnn packAddr
  ext i hi
  simp only [BitVec.getElem_extractLsb', BitVec.getLsbD_append]
  interval_cases i <;> simp [BitVec.getLsbD_eq_getElem]

@[simp] theorem family_packSel0 : Op.family (packSel0 k c) = 0 := by
  unfold Op.family packSel0
  ext i hi
  simp only [BitVec.getElem_extractLsb', BitVec.getLsbD_append]
  interval_cases i <;> simp [BitVec.getLsbD_eq_getElem]

@[simp] theorem ign8_packSel0 : Op.ign8 (packSel0 k c) = k := by
  unfold Op.ign8 packSel0
  ext i hi
  simp only [BitVec.getElem_extractLsb', BitVec.getLsbD_append]
  interval_cases i <;> simp [BitVec.getLsbD_eq_getElem]

@[simp] theorem n_packSel0 : Op.n (packSel0 k c) = c := by
  unfold Op.n packSel0
  ext i hi
  simp only [BitVec.getElem_extractLsb', BitVec.getLsbD_append]
  interval_cases i <;> simp [BitVec.getLsbD_eq_getElem]

end

/-! ## A word from its fields -/

section
variable (op : Word)

theorem packNibbles_fields : packNibbles (Op.family op) (Op.x op).bits (Op.y op).bits (Op.n op) = op := by
  show packNibbles (Op.family op) (op.extractLsb' 8 4) (op.extractLsb' 4 4) (Op.n op) = op
  unfold Op.family packNibbles Op.n
  ext i hi
  simp only [BitVec.getElem_extractLsb', BitVec.getElem_append]
  interval_cases i <;> simp [BitVec.getLsbD_eq_getElem]

theorem packNibbles_mid : packNibbles (Op.family op) (Op.x op).bits (Op.mid op) (Op.n op) = op :=
  packNibbles_fields op

theorem packByte_fields : packByte (Op.family op) (Op.x op).bits (Op.kk op) = op := by
  show packByte (Op.family op) (op.extractLsb' 8 4) (Op.kk op) = op
  unfold Op.family packByte Op.kk
  ext i hi
  simp only [BitVec.getElem_extractLsb', BitVec.getElem_append]
  interval_cases i <;> simp [BitVec.getLsbD_eq_getElem]

theorem packAddr_fields : packAddr (Op.family op) (Op.nnn op) = op := by
  unfold Op.family packAddr Op.nnn
  ext i hi
  simp only [BitVec.getElem_extractLsb', BitVec.getElem_append]
  interval_cases i <;> simp [BitVec.getLsbD_eq_getElem]

theorem packSel0_fields (h : Op.family op = 0) : packSel0 (Op.ign8 op) (Op.n op) = op := by
  have hb : ∀ i : Nat, i < 4 → op.getLsbD (12 + i) = false := fun i hi => by
    have := congrArg (·.getLsbD i) h
    simpa [Op.family, BitVec.getLsbD_extractLsb', hi] using this
  have h0 := hb 0 (by omega)
  have h1 := hb 1 (by omega)
  have h2 := hb 2 (by omega)
  have h3 := hb 3 (by omega)
  unfold packSel0 Op.ign8 Op.n
  ext i hi
  simp only [BitVec.getElem_extractLsb', BitVec.getElem_append]
  interval_cases i <;> simp_all [BitVec.getLsbD_eq_getElem]

/-- The two bytes of a word give it back (R56). -/
@[simp] theorem wordOfBytes_bytes : wordOfBytes (highByte op) (lowByte op) = op := by
  unfold wordOfBytes highByte lowByte
  ext i hi
  simp only [BitVec.getElem_extractLsb', BitVec.getElem_append]
  interval_cases i <;> simp [BitVec.getLsbD_eq_getElem]

/-- The fetched word is `(hi << 8) | lo` (R101). -/
theorem wordOfBytes_eq (hi lo : Byte) : wordOfBytes hi lo = hi.setWidth 16 <<< 8 ||| lo.setWidth 16 := by
  unfold wordOfBytes
  ext i h
  simp only [BitVec.getElem_append, BitVec.getElem_or, BitVec.getElem_shiftLeft, BitVec.getElem_setWidth]
  interval_cases i <;> simp

end

/-! ## What a mask fixes -/

section
variable (op mask pat : Word) (h : op &&& mask = pat)
include h

theorem family_of_mask (hm : mask.extractLsb' 12 4 = 0xF) : Op.family op = pat.extractLsb' 12 4 := by
  have := congrArg (·.extractLsb' 12 4) h
  simp only [BitVec.extractLsb'_and, hm] at this
  rw [← this]
  exact (BitVec.and_allOnes (x := op.extractLsb' 12 4)).symm

theorem n_of_mask (hm : mask.extractLsb' 0 4 = 0xF) : Op.n op = pat.extractLsb' 0 4 := by
  have := congrArg (·.extractLsb' 0 4) h
  simp only [BitVec.extractLsb'_and, hm] at this
  rw [← this]
  exact (BitVec.and_allOnes (x := op.extractLsb' 0 4)).symm

theorem kk_of_mask (hm : mask.extractLsb' 0 8 = 0xFF) : Op.kk op = pat.extractLsb' 0 8 := by
  have := congrArg (·.extractLsb' 0 8) h
  simp only [BitVec.extractLsb'_and, hm] at this
  rw [← this]
  exact (BitVec.and_allOnes (x := op.extractLsb' 0 8)).symm

end

theorem packNibbles_and_F000 (f a b c : BitVec 4) :
    packNibbles f a b c &&& 0xF000 = packNibbles f 0 0 0 := by
  unfold packNibbles
  apply BitVec.eq_of_getLsbD_eq
  intro i hi
  simp only [BitVec.getLsbD_and, BitVec.getLsbD_append]
  interval_cases i <;> simp

theorem packNibbles_and_F00F (f a b c : BitVec 4) :
    packNibbles f a b c &&& 0xF00F = packNibbles f 0 0 c := by
  unfold packNibbles
  apply BitVec.eq_of_getLsbD_eq
  intro i hi
  simp only [BitVec.getLsbD_and, BitVec.getLsbD_append]
  interval_cases i <;> simp

theorem packByte_and_F0FF (f a : BitVec 4) (k : Byte) :
    packByte f a k &&& 0xF0FF = packByte f 0 k := by
  unfold packByte
  apply BitVec.eq_of_getLsbD_eq
  intro i hi
  simp only [BitVec.getLsbD_and, BitVec.getLsbD_append]
  interval_cases i <;> simp

/-- Which words a row with mask 0xF000 matches: those of its family. -/
theorem and_F000_iff (op : Word) (f : BitVec 4) : op &&& 0xF000 = packNibbles f 0 0 0 ↔ Op.family op = f := by
  constructor
  · intro h
    rw [family_of_mask _ _ _ h (by decide)]
    exact family_packNibbles f 0 0 0
  · rintro rfl
    conv => lhs; rw [← packNibbles_fields op]
    exact packNibbles_and_F000 _ _ _ _

/-- Which words a row with mask 0xF00F matches: those of its family and trailing nibble. -/
theorem and_F00F_iff (op : Word) (f c : BitVec 4) :
    op &&& 0xF00F = packNibbles f 0 0 c ↔ Op.family op = f ∧ Op.n op = c := by
  constructor
  · intro h
    rw [family_of_mask _ _ _ h (by decide), n_of_mask _ _ _ h (by decide)]
    exact ⟨family_packNibbles f 0 0 c, n_packNibbles f 0 0 c⟩
  · rintro ⟨rfl, rfl⟩
    conv => lhs; rw [← packNibbles_fields op]
    exact packNibbles_and_F00F _ _ _ _

/-- Which words a row with mask 0xF0FF matches: those of its family and trailing byte. -/
theorem and_F0FF_iff (op : Word) (f : BitVec 4) (k : Byte) :
    op &&& 0xF0FF = packByte f 0 k ↔ Op.family op = f ∧ Op.kk op = k := by
  constructor
  · intro h
    rw [family_of_mask _ _ _ h (by decide), kk_of_mask _ _ _ h (by decide)]
    exact ⟨family_packByte f 0 k, kk_packByte f 0 k⟩
  · rintro ⟨rfl, rfl⟩
    conv => lhs; rw [← packByte_fields op]
    exact packByte_and_F0FF _ _ _

end Sys2Proof
end

