-- ==== Sys2Proof/Laws/State.lean ====
section
/-! SUPPORT. One lemma per field per update of the state, so that no proof unfolds a record update. -/

namespace Sys2Proof.Machine

variable (s : State)

/-! ### setReg -/

@[simp] theorem State.setReg_mem (x : Reg) (b : Byte) : (s.setReg x b).mem = s.mem := rfl
@[simp] theorem State.setReg_v (x : Reg) (b : Byte) : (s.setReg x b).v = s.v.set x b := rfl
@[simp] theorem State.setReg_i (x : Reg) (b : Byte) : (s.setReg x b).i = s.i := rfl
@[simp] theorem State.setReg_pc (x : Reg) (b : Byte) : (s.setReg x b).pc = s.pc := rfl
@[simp] theorem State.setReg_stack (x : Reg) (b : Byte) : (s.setReg x b).stack = s.stack := rfl
@[simp] theorem State.setReg_sp (x : Reg) (b : Byte) : (s.setReg x b).sp = s.sp := rfl
@[simp] theorem State.setReg_dt (x : Reg) (b : Byte) : (s.setReg x b).dt = s.dt := rfl
@[simp] theorem State.setReg_st (x : Reg) (b : Byte) : (s.setReg x b).st = s.st := rfl
@[simp] theorem State.setReg_fb (x : Reg) (b : Byte) : (s.setReg x b).fb = s.fb := rfl
@[simp] theorem State.setReg_key (x : Reg) (b : Byte) : (s.setReg x b).key = s.key := rfl
@[simp] theorem State.setReg_fault (x : Reg) (b : Byte) : (s.setReg x b).fault = s.fault := rfl
@[simp] theorem State.setReg_cfg (x : Reg) (b : Byte) : (s.setReg x b).cfg = s.cfg := rfl
@[simp] theorem State.setReg_draws (x : Reg) (b : Byte) : (s.setReg x b).draws = s.draws := rfl
@[simp] theorem State.setReg_strobes (x : Reg) (b : Byte) : (s.setReg x b).strobes = s.strobes := rfl
@[simp] theorem State.setReg_readByte (x : Reg) (b : Byte) (a' : Nat) : (s.setReg x b).readByte a' = s.readByte a' := rfl

/-! ### setPc -/

@[simp] theorem State.setPc_mem (a : Word) : (s.setPc a).mem = s.mem := rfl
@[simp] theorem State.setPc_v (a : Word) : (s.setPc a).v = s.v := rfl
@[simp] theorem State.setPc_i (a : Word) : (s.setPc a).i = s.i := rfl
@[simp] theorem State.setPc_pc (a : Word) : (s.setPc a).pc = a := rfl
@[simp] theorem State.setPc_stack (a : Word) : (s.setPc a).stack = s.stack := rfl
@[simp] theorem State.setPc_sp (a : Word) : (s.setPc a).sp = s.sp := rfl
@[simp] theorem State.setPc_dt (a : Word) : (s.setPc a).dt = s.dt := rfl
@[simp] theorem State.setPc_st (a : Word) : (s.setPc a).st = s.st := rfl
@[simp] theorem State.setPc_fb (a : Word) : (s.setPc a).fb = s.fb := rfl
@[simp] theorem State.setPc_key (a : Word) : (s.setPc a).key = s.key := rfl
@[simp] theorem State.setPc_fault (a : Word) : (s.setPc a).fault = s.fault := rfl
@[simp] theorem State.setPc_cfg (a : Word) : (s.setPc a).cfg = s.cfg := rfl
@[simp] theorem State.setPc_draws (a : Word) : (s.setPc a).draws = s.draws := rfl
@[simp] theorem State.setPc_strobes (a : Word) : (s.setPc a).strobes = s.strobes := rfl
@[simp] theorem State.setPc_readByte (a : Word) (a' : Nat) : (s.setPc a).readByte a' = s.readByte a' := rfl
@[simp] theorem State.setPc_reg (a : Word) (q : Reg) : (s.setPc a).reg q = s.reg q := rfl

/-! ### setI -/

@[simp] theorem State.setI_mem (a : Word) : (s.setI a).mem = s.mem := rfl
@[simp] theorem State.setI_v (a : Word) : (s.setI a).v = s.v := rfl
@[simp] theorem State.setI_i (a : Word) : (s.setI a).i = a := rfl
@[simp] theorem State.setI_pc (a : Word) : (s.setI a).pc = s.pc := rfl
@[simp] theorem State.setI_stack (a : Word) : (s.setI a).stack = s.stack := rfl
@[simp] theorem State.setI_sp (a : Word) : (s.setI a).sp = s.sp := rfl
@[simp] theorem State.setI_dt (a : Word) : (s.setI a).dt = s.dt := rfl
@[simp] theorem State.setI_st (a : Word) : (s.setI a).st = s.st := rfl
@[simp] theorem State.setI_fb (a : Word) : (s.setI a).fb = s.fb := rfl
@[simp] theorem State.setI_key (a : Word) : (s.setI a).key = s.key := rfl
@[simp] theorem State.setI_fault (a : Word) : (s.setI a).fault = s.fault := rfl
@[simp] theorem State.setI_cfg (a : Word) : (s.setI a).cfg = s.cfg := rfl
@[simp] theorem State.setI_draws (a : Word) : (s.setI a).draws = s.draws := rfl
@[simp] theorem State.setI_strobes (a : Word) : (s.setI a).strobes = s.strobes := rfl
@[simp] theorem State.setI_readByte (a : Word) (a' : Nat) : (s.setI a).readByte a' = s.readByte a' := rfl
@[simp] theorem State.setI_reg (a : Word) (q : Reg) : (s.setI a).reg q = s.reg q := rfl

/-! ### advancePc -/

@[simp] theorem State.advancePc_mem : s.advancePc.mem = s.mem := rfl
@[simp] theorem State.advancePc_v : s.advancePc.v = s.v := rfl
@[simp] theorem State.advancePc_i : s.advancePc.i = s.i := rfl
@[simp] theorem State.advancePc_pc : s.advancePc.pc = s.pc + 2 := rfl
@[simp] theorem State.advancePc_stack : s.advancePc.stack = s.stack := rfl
@[simp] theorem State.advancePc_sp : s.advancePc.sp = s.sp := rfl
@[simp] theorem State.advancePc_dt : s.advancePc.dt = s.dt := rfl
@[simp] theorem State.advancePc_st : s.advancePc.st = s.st := rfl
@[simp] theorem State.advancePc_fb : s.advancePc.fb = s.fb := rfl
@[simp] theorem State.advancePc_key : s.advancePc.key = s.key := rfl
@[simp] theorem State.advancePc_fault : s.advancePc.fault = s.fault := rfl
@[simp] theorem State.advancePc_cfg : s.advancePc.cfg = s.cfg := rfl
@[simp] theorem State.advancePc_draws : s.advancePc.draws = s.draws := rfl
@[simp] theorem State.advancePc_strobes : s.advancePc.strobes = s.strobes := rfl
@[simp] theorem State.advancePc_readByte (a' : Nat) : s.advancePc.readByte a' = s.readByte a' := rfl
@[simp] theorem State.advancePc_reg (q : Reg) : s.advancePc.reg q = s.reg q := rfl

/-! ### rewindPc -/

@[simp] theorem State.rewindPc_mem : s.rewindPc.mem = s.mem := rfl
@[simp] theorem State.rewindPc_v : s.rewindPc.v = s.v := rfl
@[simp] theorem State.rewindPc_i : s.rewindPc.i = s.i := rfl
@[simp] theorem State.rewindPc_pc : s.rewindPc.pc = s.pc - 2 := rfl
@[simp] theorem State.rewindPc_stack : s.rewindPc.stack = s.stack := rfl
@[simp] theorem State.rewindPc_sp : s.rewindPc.sp = s.sp := rfl
@[simp] theorem State.rewindPc_dt : s.rewindPc.dt = s.dt := rfl
@[simp] theorem State.rewindPc_st : s.rewindPc.st = s.st := rfl
@[simp] theorem State.rewindPc_fb : s.rewindPc.fb = s.fb := rfl
@[simp] theorem State.rewindPc_key : s.rewindPc.key = s.key := rfl
@[simp] theorem State.rewindPc_fault : s.rewindPc.fault = s.fault := rfl
@[simp] theorem State.rewindPc_cfg : s.rewindPc.cfg = s.cfg := rfl
@[simp] theorem State.rewindPc_draws : s.rewindPc.draws = s.draws := rfl
@[simp] theorem State.rewindPc_strobes : s.rewindPc.strobes = s.strobes := rfl
@[simp] theorem State.rewindPc_readByte (a' : Nat) : s.rewindPc.readByte a' = s.readByte a' := rfl
@[simp] theorem State.rewindPc_reg (q : Reg) : s.rewindPc.reg q = s.reg q := rfl

/-! ### clearDisplay -/

@[simp] theorem State.clearDisplay_mem : s.clearDisplay.mem = s.mem := rfl
@[simp] theorem State.clearDisplay_v : s.clearDisplay.v = s.v := rfl
@[simp] theorem State.clearDisplay_i : s.clearDisplay.i = s.i := rfl
@[simp] theorem State.clearDisplay_pc : s.clearDisplay.pc = s.pc := rfl
@[simp] theorem State.clearDisplay_stack : s.clearDisplay.stack = s.stack := rfl
@[simp] theorem State.clearDisplay_sp : s.clearDisplay.sp = s.sp := rfl
@[simp] theorem State.clearDisplay_dt : s.clearDisplay.dt = s.dt := rfl
@[simp] theorem State.clearDisplay_st : s.clearDisplay.st = s.st := rfl
@[simp] theorem State.clearDisplay_fb : s.clearDisplay.fb = Vector.replicate fbSize 0x00 := rfl
@[simp] theorem State.clearDisplay_key : s.clearDisplay.key = s.key := rfl
@[simp] theorem State.clearDisplay_fault : s.clearDisplay.fault = s.fault := rfl
@[simp] theorem State.clearDisplay_cfg : s.clearDisplay.cfg = s.cfg := rfl
@[simp] theorem State.clearDisplay_draws : s.clearDisplay.draws = s.draws := rfl
@[simp] theorem State.clearDisplay_strobes : s.clearDisplay.strobes = s.strobes := rfl
@[simp] theorem State.clearDisplay_readByte (a' : Nat) : s.clearDisplay.readByte a' = s.readByte a' := rfl
@[simp] theorem State.clearDisplay_reg (q : Reg) : s.clearDisplay.reg q = s.reg q := rfl

/-! ### writeByte -/

@[simp] theorem State.writeByte_mem (a : Nat) (b : Byte) : (s.writeByte a b).mem = Memory.write s.cfg.font s.mem a b := rfl
@[simp] theorem State.writeByte_v (a : Nat) (b : Byte) : (s.writeByte a b).v = s.v := rfl
@[simp] theorem State.writeByte_i (a : Nat) (b : Byte) : (s.writeByte a b).i = s.i := rfl
@[simp] theorem State.writeByte_pc (a : Nat) (b : Byte) : (s.writeByte a b).pc = s.pc := rfl
@[simp] theorem State.writeByte_stack (a : Nat) (b : Byte) : (s.writeByte a b).stack = s.stack := rfl
@[simp] theorem State.writeByte_sp (a : Nat) (b : Byte) : (s.writeByte a b).sp = s.sp := rfl
@[simp] theorem State.writeByte_dt (a : Nat) (b : Byte) : (s.writeByte a b).dt = s.dt := rfl
@[simp] theorem State.writeByte_st (a : Nat) (b : Byte) : (s.writeByte a b).st = s.st := rfl
@[simp] theorem State.writeByte_fb (a : Nat) (b : Byte) : (s.writeByte a b).fb = s.fb := rfl
@[simp] theorem State.writeByte_key (a : Nat) (b : Byte) : (s.writeByte a b).key = s.key := rfl
@[simp] theorem State.writeByte_fault (a : Nat) (b : Byte) : (s.writeByte a b).fault = s.fault := rfl
@[simp] theorem State.writeByte_cfg (a : Nat) (b : Byte) : (s.writeByte a b).cfg = s.cfg := rfl
@[simp] theorem State.writeByte_draws (a : Nat) (b : Byte) : (s.writeByte a b).draws = s.draws := rfl
@[simp] theorem State.writeByte_strobes (a : Nat) (b : Byte) : (s.writeByte a b).strobes = s.strobes := rfl
@[simp] theorem State.writeByte_reg (a : Nat) (b : Byte) (q : Reg) : (s.writeByte a b).reg q = s.reg q := rfl

/-! ### takeDraw -/

@[simp] theorem State.takeDraw_mem : s.takeDraw.mem = s.mem := rfl
@[simp] theorem State.takeDraw_v : s.takeDraw.v = s.v := rfl
@[simp] theorem State.takeDraw_i : s.takeDraw.i = s.i := rfl
@[simp] theorem State.takeDraw_pc : s.takeDraw.pc = s.pc := rfl
@[simp] theorem State.takeDraw_stack : s.takeDraw.stack = s.stack := rfl
@[simp] theorem State.takeDraw_sp : s.takeDraw.sp = s.sp := rfl
@[simp] theorem State.takeDraw_dt : s.takeDraw.dt = s.dt := rfl
@[simp] theorem State.takeDraw_st : s.takeDraw.st = s.st := rfl
@[simp] theorem State.takeDraw_fb : s.takeDraw.fb = s.fb := rfl
@[simp] theorem State.takeDraw_key : s.takeDraw.key = s.key := rfl
@[simp] theorem State.takeDraw_fault : s.takeDraw.fault = s.fault := rfl
@[simp] theorem State.takeDraw_cfg : s.takeDraw.cfg = s.cfg := rfl
@[simp] theorem State.takeDraw_draws : s.takeDraw.draws = s.draws + 1 := rfl
@[simp] theorem State.takeDraw_strobes : s.takeDraw.strobes = s.strobes := rfl
@[simp] theorem State.takeDraw_readByte (a' : Nat) : s.takeDraw.readByte a' = s.readByte a' := rfl
@[simp] theorem State.takeDraw_reg (q : Reg) : s.takeDraw.reg q = s.reg q := rfl

/-! ### writeKeys -/

@[simp] theorem State.writeKeys_mem (k : Vector Bool 16) : (s.writeKeys k).mem = s.mem := rfl
@[simp] theorem State.writeKeys_v (k : Vector Bool 16) : (s.writeKeys k).v = s.v := rfl
@[simp] theorem State.writeKeys_i (k : Vector Bool 16) : (s.writeKeys k).i = s.i := rfl
@[simp] theorem State.writeKeys_pc (k : Vector Bool 16) : (s.writeKeys k).pc = s.pc := rfl
@[simp] theorem State.writeKeys_stack (k : Vector Bool 16) : (s.writeKeys k).stack = s.stack := rfl
@[simp] theorem State.writeKeys_sp (k : Vector Bool 16) : (s.writeKeys k).sp = s.sp := rfl
@[simp] theorem State.writeKeys_dt (k : Vector Bool 16) : (s.writeKeys k).dt = s.dt := rfl
@[simp] theorem State.writeKeys_st (k : Vector Bool 16) : (s.writeKeys k).st = s.st := rfl
@[simp] theorem State.writeKeys_fb (k : Vector Bool 16) : (s.writeKeys k).fb = s.fb := rfl
@[simp] theorem State.writeKeys_key (k : Vector Bool 16) : (s.writeKeys k).key = k := rfl
@[simp] theorem State.writeKeys_fault (k : Vector Bool 16) : (s.writeKeys k).fault = s.fault := rfl
@[simp] theorem State.writeKeys_cfg (k : Vector Bool 16) : (s.writeKeys k).cfg = s.cfg := rfl
@[simp] theorem State.writeKeys_draws (k : Vector Bool 16) : (s.writeKeys k).draws = s.draws := rfl
@[simp] theorem State.writeKeys_strobes (k : Vector Bool 16) : (s.writeKeys k).strobes = s.strobes := rfl
@[simp] theorem State.writeKeys_readByte (k : Vector Bool 16) (a' : Nat) : (s.writeKeys k).readByte a' = s.readByte a' := rfl
@[simp] theorem State.writeKeys_reg (k : Vector Bool 16) (q : Reg) : (s.writeKeys k).reg q = s.reg q := rfl

/-! ### enterFault -/

@[simp] theorem State.enterFault_mem (op : Word) (r : Raise) : (s.enterFault op r).mem = s.mem := rfl
@[simp] theorem State.enterFault_v (op : Word) (r : Raise) : (s.enterFault op r).v = s.v := rfl
@[simp] theorem State.enterFault_i (op : Word) (r : Raise) : (s.enterFault op r).i = s.i := rfl
@[simp] theorem State.enterFault_pc (op : Word) (r : Raise) : (s.enterFault op r).pc = s.pc := rfl
@[simp] theorem State.enterFault_stack (op : Word) (r : Raise) : (s.enterFault op r).stack = s.stack := rfl
@[simp] theorem State.enterFault_sp (op : Word) (r : Raise) : (s.enterFault op r).sp = s.sp := rfl
@[simp] theorem State.enterFault_dt (op : Word) (r : Raise) : (s.enterFault op r).dt = s.dt := rfl
@[simp] theorem State.enterFault_st (op : Word) (r : Raise) : (s.enterFault op r).st = s.st := rfl
@[simp] theorem State.enterFault_fb (op : Word) (r : Raise) : (s.enterFault op r).fb = s.fb := rfl
@[simp] theorem State.enterFault_key (op : Word) (r : Raise) : (s.enterFault op r).key = s.key := rfl
@[simp] theorem State.enterFault_fault (op : Word) (r : Raise) : (s.enterFault op r).fault = ⟨true, r.cause, s.pc, op, r.addr⟩ := rfl
@[simp] theorem State.enterFault_cfg (op : Word) (r : Raise) : (s.enterFault op r).cfg = s.cfg := rfl
@[simp] theorem State.enterFault_draws (op : Word) (r : Raise) : (s.enterFault op r).draws = s.draws := rfl
@[simp] theorem State.enterFault_strobes (op : Word) (r : Raise) : (s.enterFault op r).strobes = s.strobes := rfl
@[simp] theorem State.enterFault_readByte (op : Word) (r : Raise) (a' : Nat) : (s.enterFault op r).readByte a' = s.readByte a' := rfl
@[simp] theorem State.enterFault_reg (op : Word) (r : Raise) (q : Reg) : (s.enterFault op r).reg q = s.reg q := rfl

/-! ### init -/

@[simp] theorem State.init_mem : s.init.mem = [] := rfl
@[simp] theorem State.init_v : s.init.v = Vector.replicate 16 0x00 := rfl
@[simp] theorem State.init_i : s.init.i = 0x0000 := rfl
@[simp] theorem State.init_pc : s.init.pc = 0x0200 := rfl
@[simp] theorem State.init_stack : s.init.stack = Vector.replicate 16 0x0000 := rfl
@[simp] theorem State.init_sp : s.init.sp = 0 := rfl
@[simp] theorem State.init_dt : s.init.dt = 0 := rfl
@[simp] theorem State.init_st : s.init.st = 0 := rfl
@[simp] theorem State.init_fb : s.init.fb = Vector.replicate fbSize 0x00 := rfl
@[simp] theorem State.init_key : s.init.key = Vector.replicate 16 false := rfl
@[simp] theorem State.init_fault : s.init.fault = FaultStatus.clear := rfl
@[simp] theorem State.init_cfg : s.init.cfg = s.cfg := rfl
@[simp] theorem State.init_draws : s.init.draws = s.draws := rfl
@[simp] theorem State.init_strobes : s.init.strobes = s.strobes := rfl

/-! ### reads after writes -/

/-- Writing a register: it reads as written, every other register as before. -/
theorem State.reg_setReg (x r : Reg) (b : Byte) : (s.setReg x b).reg r = if r = x then b else s.reg r := by
  simp only [State.reg, State.setReg, Fin.getElem_fin, Vector.getElem_set, Fin.ext_iff]
  split <;> split <;> first | rfl | omega

@[simp] theorem State.reg_setReg_same (x : Reg) (b : Byte) : (s.setReg x b).reg x = b := by
  simp [State.reg_setReg]

end Sys2Proof.Machine
end

