-- ==== Sys2Proof/Laws/Memory.lean ====
section
/-! SUPPORT. Memory: a read after a write, the canonical form kept by every operation, and what the checked sequences of
reads and writes do. -/

namespace Sys2Proof.Machine

/-! ## Reads and writes -/

/-- No entry below the first address of a canonical memory. -/
theorem Memory.lookup_none_of_lt (m : Memory) (a : Nat) (h : ∀ c ∈ m, a < c.1) : Memory.lookup m a = none := by
  induction m with
  | nil => rfl
  | cons c m ih =>
    have hc := h c (by simp)
    simp only [Memory.lookup]
    rw [if_neg (by omega)]
    exact ih fun d hd => h d (by simp [hd])

/-- A read after a write: the byte written at its address, the old byte everywhere else. -/
theorem Memory.read_write (font : Font) (m : Memory) (a a' : Nat) (b : Byte)
    (h : m.Pairwise fun c d => c.1 < d.1) :
    Memory.read font (Memory.write font m a b) a' = if a' = a then b else Memory.read font m a' := by
  induction m with
  | nil =>
    simp only [Memory.write]
    by_cases hb : b = Memory.unlisted font a
    · simp only [hb, if_true, Memory.read, Memory.lookup, Option.getD_none]
      split <;> simp_all
    · rw [if_neg hb]
      by_cases ha : a' = a
      · simp [Memory.read, Memory.lookup, ha]
      · simp [Memory.read, Memory.lookup, ha, Ne.symm ha]
  | cons c m ih =>
    rw [List.pairwise_cons] at h
    have ih := ih h.2
    simp only [Memory.write]
    by_cases hlt : a < c.1
    · rw [if_pos hlt]
      have hnone : Memory.lookup (c :: m) a = none :=
        Memory.lookup_none_of_lt _ _ fun d hd => by
          rcases List.mem_cons.1 hd with rfl | hd
          · exact hlt
          · exact hlt.trans (h.1 d hd)
      by_cases hb : b = Memory.unlisted font a
      · rw [if_pos hb]
        by_cases ha : a' = a
        · simp [Memory.read, ha, hnone, hb]
        · simp [ha]
      · rw [if_neg hb]
        by_cases ha : a' = a
        · simp [Memory.read, Memory.lookup, ha]
        · simp [Memory.read, Memory.lookup, ha, Ne.symm ha]
    · rw [if_neg hlt]
      by_cases heq : a = c.1
      · rw [if_pos heq]
        have hnone : Memory.lookup m a = none :=
          Memory.lookup_none_of_lt _ _ fun d hd => heq ▸ h.1 d hd
        by_cases hb : b = Memory.unlisted font a
        · rw [if_pos hb]
          by_cases ha : a' = a
          · simp [Memory.read, ha, hnone, hb]
          · simp [Memory.read, Memory.lookup, ha, ← heq, Ne.symm ha]
        · rw [if_neg hb]
          by_cases ha : a' = a
          · simp [Memory.read, Memory.lookup, ha]
          · simp [Memory.read, Memory.lookup, ha, ← heq, Ne.symm ha]
      · rw [if_neg heq]
        by_cases hc : c.1 = a'
        · have : a' ≠ a := by omega
          simp [Memory.read, Memory.lookup, hc, this]
        · simpa [Memory.read, Memory.lookup, hc] using ih

/-- Every entry of a written memory is an old entry or the byte written, which is not what the address reads as. -/
theorem Memory.mem_write (font : Font) (m : Memory) (a : Nat) (b : Byte) (c : Host.Cell)
    (h : c ∈ Memory.write font m a b) : c ∈ m ∨ (c = (a, b) ∧ b ≠ Memory.unlisted font a) := by
  induction m with
  | nil =>
    simp only [Memory.write] at h
    split at h
    · simp at h
    · simp_all
  | cons d m ih =>
    simp only [Memory.write] at h
    split at h
    · split at h
      · exact .inl h
      · rcases List.mem_cons.1 h with rfl | h
        · exact .inr ⟨rfl, by assumption⟩
        · exact .inl h
    · split at h
      · split at h
        · exact .inl (by simp [h])
        · rcases List.mem_cons.1 h with rfl | h
          · exact .inr ⟨rfl, by assumption⟩
          · exact .inl (by simp [h])
      · rcases List.mem_cons.1 h with rfl | h
        · exact .inl (by simp)
        · rcases ih h with h | h
          · exact .inl (by simp [h])
          · exact .inr h

/-- A write inside the address space keeps the canonical form. -/
theorem Memory.write_wf (font : Font) (m : Memory) (a : Nat) (b : Byte) (ha : a < memSize)
    (h : Memory.wf font m) : Memory.wf font (Memory.write font m a b) := by
  refine ⟨?_, fun c hc => ?_⟩
  · have hp := h.1
    clear h
    induction m with
    | nil => simp only [Memory.write]; split <;> simp
    | cons d m ih =>
      have hd := List.pairwise_cons.1 hp
      simp only [Memory.write]
      split
      · split
        · exact hp
        · refine List.pairwise_cons.2 ⟨fun c hc => ?_, hp⟩
          rcases List.mem_cons.1 hc with rfl | hc
          · assumption
          · have := hd.1 c hc; simp only; omega
      · split
        · split
          · exact hd.2
          · exact List.pairwise_cons.2 ⟨fun c hc => by have := hd.1 c hc; simp only; omega, hd.2⟩
        · refine List.pairwise_cons.2 ⟨fun c hc => ?_, ih hd.2⟩
          rcases Memory.mem_write font m a b c hc with hc | ⟨rfl, _⟩
          · exact hd.1 c hc
          · simp only; omega
  · rcases Memory.mem_write font m a b c hc with hc | ⟨rfl, hb⟩
    · exact h.2 c hc
    · exact ⟨ha, hb⟩

/-- Reset memory has the canonical form. -/
theorem Memory.nil_wf (font : Font) : Memory.wf font [] := by simp [Memory.wf]

/-- A read after a write of the state. -/
theorem State.readByte_writeByte (s : State) (a a' : Nat) (b : Byte) (h : Memory.wf s.cfg.font s.mem) :
    (s.writeByte a b).readByte a' = if a' = a then b else s.readByte a' :=
  Memory.read_write s.cfg.font s.mem a a' b h.1

/-! ## Checked sequences -/

/-- A sequence of reads that stays inside memory gives the bytes in order. -/
theorem State.memReads_ok (s : State) (a n : Nat) (h : a + n ≤ memSize) :
    s.memReads a n = .ok ((List.range n).map fun k => s.readByte (a + k)) := by
  induction n generalizing a with
  | zero => rfl
  | succ n ih =>
    have h0 : s.memRead a = .ok (s.readByte a) := if_neg (by unfold memSize at h; omega)
    simp only [State.memReads, h0, ih (a + 1) (by omega), List.range_succ_eq_map, List.map_cons, List.map_map]
    congr 2
    exact List.map_congr_left fun k _ => by simp [Nat.add_assoc, Nat.add_comm 1]

/-- A sequence of reads that leaves memory raises at the first address above 0xFFF. -/
theorem State.memReads_error (s : State) (a n : Nat) (hn : 0 < n) (h : memSize < a + n) :
    s.memReads a n = .error ⟨.readOutOfBounds, BitVec.ofNat 16 (max a 0x1000)⟩ := by
  induction n generalizing a with
  | zero => omega
  | succ n ih =>
    unfold memSize at h
    by_cases ha : a > 0xFFF
    · have h0 : s.memRead a = .error ⟨.readOutOfBounds, BitVec.ofNat 16 a⟩ := if_pos ha
      simp only [State.memReads, h0, show max a 0x1000 = a by omega]
    · have h0 : s.memRead a = .ok (s.readByte a) := if_neg ha
      simp only [State.memReads, h0, ih (a + 1) (by omega) (by unfold memSize; omega),
        show max (a + 1) 0x1000 = max a 0x1000 by omega]

/-- A sequence of writes touches memory only. -/
theorem State.memWrites_eq (s t : State) (a : Nat) (bs : List Byte) (h : s.memWrites a bs = .ok t) :
    t = { s with mem := t.mem } := by
  induction bs generalizing s a with
  | nil => cases h; rfl
  | cons b bs ih =>
    simp only [State.memWrites, State.memWrite] at h
    split at h
    · cases h
    · rename_i heq
      split at heq
      · cases heq
      · cases heq
        have := ih (s := s.writeByte a b) _ h
        rw [this]
        rfl

/-- A sequence of writes that stays inside memory completes, whatever the memory. -/
theorem State.memWrites_completes (s : State) (a : Nat) (bs : List Byte) (h : a + bs.length ≤ memSize) :
    ∃ t, s.memWrites a bs = .ok t := by
  induction bs generalizing s a with
  | nil => exact ⟨s, rfl⟩
  | cons b bs ih =>
    have hlen : a + (bs.length + 1) ≤ 4096 := h
    have h0 : s.memWrite a b = .ok (s.writeByte a b) := if_neg (by omega)
    obtain ⟨t, ht⟩ := ih (s.writeByte a b) (a + 1) (by unfold memSize; omega)
    exact ⟨t, by simp only [State.memWrites, h0, ht]⟩

/-- A sequence of writes that stays inside memory completes: the bytes stand in order, every other byte is as before,
and the canonical form is kept. -/
theorem State.memWrites_ok (s : State) (a : Nat) (bs : List Byte) (h : a + bs.length ≤ memSize)
    (hw : Memory.wf s.cfg.font s.mem) :
    ∃ t, s.memWrites a bs = .ok t ∧ Memory.wf t.cfg.font t.mem ∧
      ∀ a', t.readByte a' = if h : a ≤ a' ∧ a' < a + bs.length then bs[a' - a]'(by omega) else s.readByte a' := by
  induction bs generalizing s a with
  | nil => exact ⟨s, rfl, hw, fun a' => by rw [dif_neg (by simp)]⟩
  | cons b bs ih =>
    have hlen : a + (bs.length + 1) ≤ 4096 := h
    have h0 : s.memWrite a b = .ok (s.writeByte a b) := if_neg (by omega)
    obtain ⟨t, ht, htw, hr⟩ := ih (s.writeByte a b) (a + 1) (by unfold memSize; omega)
      (Memory.write_wf _ _ _ _ (by unfold memSize; omega) hw)
    refine ⟨t, by simp only [State.memWrites, h0, ht], htw, fun a' => ?_⟩
    rw [hr a', State.readByte_writeByte s a a' b hw]
    by_cases h1 : a + 1 ≤ a' ∧ a' < a + 1 + bs.length
    · rw [dif_pos h1, dif_pos (by simp only [List.length_cons]; omega)]
      obtain ⟨k, hk⟩ : ∃ k, a' - a = k + 1 := ⟨a' - a - 1, by omega⟩
      simp only [hk, List.getElem_cons_succ]
      congr 1; omega
    · rw [dif_neg h1]
      by_cases h2 : a' = a
      · subst h2; rw [if_pos rfl, dif_pos (by simp)]; simp
      · rw [if_neg h2, dif_neg (by simp only [List.length_cons]; omega)]

/-- A sequence of writes keeps the canonical form, whether or not its memory is long enough. -/
theorem State.memWrites_wf (s t : State) (a : Nat) (bs : List Byte) (h : s.memWrites a bs = .ok t)
    (hw : Memory.wf s.cfg.font s.mem) : Memory.wf t.cfg.font t.mem := by
  induction bs generalizing s a with
  | nil => cases h; exact hw
  | cons b bs ih =>
    simp only [State.memWrites, State.memWrite] at h
    split at h
    · cases h
    · rename_i heq
      split at heq
      · cases heq
      · cases heq
        exact ih (s := s.writeByte a b) _ h (Memory.write_wf _ _ _ _ (by unfold memSize; omega) hw)

/-- A sequence of writes that leaves memory raises at the first address above 0xFFF. -/
theorem State.memWrites_error (s : State) (a : Nat) (bs : List Byte) (hn : bs ≠ []) (h : memSize < a + bs.length) :
    s.memWrites a bs = .error ⟨.writeOutOfBounds, BitVec.ofNat 16 (max a 0x1000)⟩ := by
  induction bs generalizing s a with
  | nil => exact absurd rfl hn
  | cons b bs ih =>
    have hlen : 4096 < a + (bs.length + 1) := h
    by_cases ha : a > 0xFFF
    · have h0 : s.memWrite a b = .error ⟨.writeOutOfBounds, BitVec.ofNat 16 a⟩ := if_pos ha
      simp only [State.memWrites, h0, show max a 0x1000 = a by omega]
    · have h0 : s.memWrite a b = .ok (s.writeByte a b) := if_neg ha
      have hbs : bs ≠ [] := by rintro rfl; simp at hlen; omega
      simp only [State.memWrites, h0, ih (s.writeByte a b) (a + 1) hbs (by unfold memSize; omega),
        show max (a + 1) 0x1000 = max a 0x1000 by omega]

/-- Copying a ROM keeps the canonical form and touches memory only (R263). -/
theorem State.copyIn_spec (s : State) (a : Nat) (bs : List Byte) (h : a + bs.length ≤ memSize)
    (hw : Memory.wf s.cfg.font s.mem) :
    Memory.wf (s.copyIn a bs).cfg.font (s.copyIn a bs).mem ∧ s.copyIn a bs = { s with mem := (s.copyIn a bs).mem } ∧
      ∀ a', (s.copyIn a bs).readByte a' =
        if h : a ≤ a' ∧ a' < a + bs.length then bs[a' - a]'(by omega) else s.readByte a' := by
  induction bs generalizing s a with
  | nil => exact ⟨hw, rfl, fun a' => by rw [dif_neg (by simp)]; rfl⟩
  | cons b bs ih =>
    have hlen : a + (bs.length + 1) ≤ 4096 := h
    obtain ⟨h1, h2, h3⟩ := ih (s.writeByte a b) (a + 1) (by unfold memSize; omega)
      (Memory.write_wf _ _ _ _ (by unfold memSize; omega) hw)
    refine ⟨h1, ?_, fun a' => ?_⟩
    · simp only [State.copyIn]; rw [h2]; rfl
    · simp only [State.copyIn]
      rw [h3 a', State.readByte_writeByte s a a' b hw]
      by_cases h1 : a + 1 ≤ a' ∧ a' < a + 1 + bs.length
      · rw [dif_pos h1, dif_pos (by simp only [List.length_cons]; omega)]
        obtain ⟨k, hk⟩ : ∃ k, a' - a = k + 1 := ⟨a' - a - 1, by omega⟩
        simp only [hk, List.getElem_cons_succ]
        congr 1; omega
      · rw [dif_neg h1]
        by_cases h2 : a' = a
        · subst h2; rw [if_pos rfl, dif_pos (by simp)]; simp
        · rw [if_neg h2, dif_neg (by simp only [List.length_cons]; omega)]

/-! ## What checked reads and writes depend on -/

/-- Checked reads depend on memory and the configuration only. -/
theorem State.memReads_congr (s u : State) (a n : Nat) (hm : u.mem = s.mem) (hc : u.cfg = s.cfg) :
    u.memReads a n = s.memReads a n := by
  have hr : ∀ a, u.memRead a = s.memRead a := fun a => by
    simp only [State.memRead, State.readByte, hm, hc]
  induction n generalizing a with
  | zero => rfl
  | succ n ih => simp only [State.memReads, hr, ih]

/-- Checked writes depend on memory and the configuration only, and give the rest of the state back. -/
theorem State.memWrites_congr (s u : State) (a : Nat) (bs : List Byte) (hm : u.mem = s.mem) (hc : u.cfg = s.cfg) :
    u.memWrites a bs = (s.memWrites a bs).map fun t => { u with mem := t.mem } := by
  induction bs generalizing s u a with
  | nil => simp only [State.memWrites, Except.map, ← hm]
  | cons b bs ih =>
    simp only [State.memWrites, State.memWrite]
    by_cases h : a > 0xFFF
    · rw [if_pos h, if_pos h]; rfl
    · rw [if_neg h, if_neg h]
      exact ih (s.writeByte a b) (u.writeByte a b) (a + 1) (by simp [hm, hc]) hc

end Sys2Proof.Machine
end

