-- ==== Sys2Proof/Laws/Ops.lean ====
section
/-! SUPPORT. One lemma per shared operation, saying once everything it does. -/

namespace Sys2Proof.Machine

/-! ## Frames -/

theorem UnchangedBut.refl (ps : List Part) (s : State) : UnchangedBut ps s s := by
  intro p _
  cases p <;> first | rfl | exact ⟨rfl, rfl⟩ | exact fun _ => rfl

theorem UnchangedBut.trans {ps : List Part} {s t u : State} (h : UnchangedBut ps s t) (h' : UnchangedBut ps t u) :
    UnchangedBut ps s u := by
  intro p hp
  have h := h p hp
  have h' := h' p hp
  cases p <;> simp only [Part.unchanged] at * <;>
    first | exact h'.trans h | exact ⟨h'.1.trans h.1, h'.2.trans h.2⟩ | exact fun a => (h' a).trans (h a)

theorem UnchangedBut.mono {ps qs : List Part} {s t : State} (h : UnchangedBut ps s t) (hs : ∀ p ∈ ps, p ∈ qs) :
    UnchangedBut qs s t := fun p hp => h p fun hp' => hp (hs p hp')

/-! ## Registers -/

/-- Writing a register changes that register only. -/
theorem State.setReg_unchanged (s : State) (x : Reg) (b : Byte) : UnchangedBut [.regs] s (s.setReg x b) := by
  intro p hp
  cases p <;> first | rfl | exact ⟨rfl, rfl⟩ | exact fun _ => rfl | exact absurd (by simp) hp

/-- Writing consecutive registers changes the registers only. -/
theorem State.setRegs_eq (s : State) (k : Nat) (bs : List Byte) :
    s.setRegs k bs = { s with v := (s.setRegs k bs).v } := by
  induction bs generalizing s k with
  | nil => rfl
  | cons b bs ih =>
    simp only [State.setRegs]
    rw [ih]

/-- Writing consecutive registers: those in the range hold the bytes in order, the others what they held. -/
theorem State.setRegs_reg (s : State) (k : Nat) (bs : List Byte) (h : k + bs.length ≤ 16) (r : Reg) :
    (s.setRegs k bs).reg r =
      if h : k ≤ r.val ∧ r.val < k + bs.length then bs[r.val - k]'(by omega) else s.reg r := by
  induction bs generalizing s k with
  | nil => rw [dif_neg (by simp)]; rfl
  | cons b bs ih =>
    have hlen : k + (bs.length + 1) ≤ 16 := h
    simp only [State.setRegs]
    rw [ih _ (k + 1) (by omega)]
    by_cases h1 : k + 1 ≤ r.val ∧ r.val < k + 1 + bs.length
    · rw [dif_pos h1, dif_pos (by simp only [List.length_cons]; omega)]
      obtain ⟨j, hj⟩ : ∃ j, r.val - k = j + 1 := ⟨r.val - k - 1, by omega⟩
      simp only [hj, List.getElem_cons_succ]
      congr 1; omega
    · rw [dif_neg h1]
      by_cases h2 : k = r.val
      · subst h2
        rw [dif_pos (by simp)]
        simp [State.reg]
      · rw [dif_neg (by simp only [List.length_cons]; omega)]
        simp [State.reg, h2]

theorem State.regsUpTo_length (s : State) (x : Reg) : (s.regsUpTo x).length = x.val + 1 := by
  have := x.isLt
  simp only [State.regsUpTo, List.length_take, Vector.length_toList]
  omega

theorem State.regsUpTo_getElem (s : State) (x : Reg) (k : Nat) (h : k < (s.regsUpTo x).length) :
    (s.regsUpTo x)[k] = s.reg ⟨k, by have := s.regsUpTo_length x; omega⟩ := by
  simp [State.regsUpTo, State.reg]

/-- A result and a flag: both written in the order of `VF_ORDER`, nothing else changed (R107). -/
theorem State.setRegAndFlag_spec (s : State) (x : Reg) (res flag : Byte) :
    ResultAndFlag s (s.setRegAndFlag x res flag) x res flag ∧ UnchangedBut [.regs] s (s.setRegAndFlag x res flag) := by
  refine ⟨⟨fun hx => ?_, fun hx => ?_, fun r h1 h2 => ?_⟩, ?_⟩
  · unfold State.setRegAndFlag
    have hx' : (15 : Reg) ≠ x := Ne.symm hx
    split <;> simp [State.reg_setReg, hx, hx', Reg.vf]
  · subst hx
    unfold State.setRegAndFlag
    cases s.cfg.vfOrder <;> simp [Reg.vf]
  · unfold State.setRegAndFlag
    split <;> simp [State.reg_setReg, h1, h2, Reg.vf]
  · unfold State.setRegAndFlag
    split <;> exact (State.setReg_unchanged _ _ _).trans (State.setReg_unchanged _ _ _)

/-! ## Skips, addresses and the block transfer's effect on I -/

/-- A skip adds 2 to the PC if its condition holds, and changes nothing else (R125). -/
theorem State.skipIf_pc_ite (s : State) (c : Bool) :
    s.skipIf c = { s with pc := if c then s.pc + 2 else s.pc } := by cases c <;> rfl

theorem addrWord_toNat (nnn : Addr12) : (addrWord nnn).toNat = nnn.toNat := by
  have := nnn.isLt
  simp only [addrWord, BitVec.toNat_setWidth]
  omega

/-- The V0-indexed target, not reduced modulo 0x1000 (R124). -/
theorem State.v0Indexed_toNat (s : State) (nnn : Addr12) :
    (s.v0Indexed nnn).toNat = (s.reg 0).toNat + nnn.toNat := by
  have := nnn.isLt
  have := (s.reg 0).isLt
  rw [State.v0Indexed, BitVec.toNat_add, addrWord_toNat, BitVec.toNat_setWidth]
  omega

/-- The font address, the register not masked (R204). -/
theorem State.fontAddr_toNat (s : State) (x : Reg) : (s.fontAddr x).toNat = 0x050 + 5 * (s.reg x).toNat := by
  have := (s.reg x).isLt
  rw [State.fontAddr, BitVec.toNat_add, BitVec.toNat_mul, BitVec.toNat_setWidth]
  change (80 + 5 * ((s.reg x).toNat % 65536) % 65536) % 65536 = _
  omega

/-- A block transfer advances I by x + 1 exactly with BLOCK_INC_I (R207). -/
theorem State.blockAdvanceI_i (s : State) (x : Reg) :
    (s.blockAdvanceI x).i = if s.cfg.blockIncI = true then s.i + BitVec.ofNat 16 (x.val + 1) else s.i := by
  unfold State.blockAdvanceI
  split <;> rfl

/-! ## Stack (R31) -/

theorem State.pushPc_ok (s : State) (h : s.sp.val < 16) :
    s.pushPc = .ok { s with stack := s.stack.set s.sp.val s.pc, sp := ⟨s.sp.val + 1, by omega⟩ } := dif_pos h

theorem State.pushPc_error (s : State) (h : s.sp.val = 16) : s.pushPc = .error ⟨.stackOverflow, 16⟩ := by
  rw [State.pushPc, dif_neg (by omega), h]; rfl

theorem State.popPc_ok (s : State) (h : 0 < s.sp.val) :
    s.popPc = .ok { s with pc := s.stack[s.sp.val - 1]'(by omega), sp := ⟨s.sp.val - 1, by omega⟩ } := dif_pos h

theorem State.popPc_error (s : State) (h : s.sp.val = 0) : s.popPc = .error ⟨.stackUnderflow, 0⟩ := by
  rw [State.popPc, dif_neg (by omega), h]; rfl

/-! ## Keys (R182, R183) -/

theorem State.keyNamed_ok (s : State) (x : Reg) (h : (s.reg x).toNat < 16) :
    s.keyNamed x = .ok s.key[(s.reg x).toNat] := dif_pos h

theorem State.keyNamed_error (s : State) (x : Reg) (h : 0xF < (s.reg x).toNat) :
    s.keyNamed x = .error ⟨.keyIndexOutOfRange, (s.reg x).setWidth 16⟩ := dif_neg (by omega)

/-- The scan finds the first pressed key of its range. -/
theorem scanKeys_some (key : Vector Bool 16) (k n j : Nat) (hk : k ≤ j) (hj : j < k + n) (h16 : k + n ≤ 16)
    (hp : key[j] = true) (hf : ∀ l (h : l < 16), k ≤ l → l < j → key[l] = false) :
    scanKeys key k n = some (BitVec.ofNat 8 j) := by
  induction n generalizing k with
  | zero => omega
  | succ n ih =>
    have hk16 : k < 16 := by omega
    simp only [scanKeys, Vector.getElem?_eq_getElem hk16, Option.getD_some]
    by_cases h : k = j
    · subst h; rw [if_pos hp]
    · rw [if_neg (by rw [hf k hk16 (by omega) (by omega)]; simp)]
      exact ih (k + 1) (by omega) (by omega) (by omega) hp fun l h h1 h2 => hf l h (by omega) h2

/-- The scan finds nothing when no key of its range is pressed. -/
theorem scanKeys_none (key : Vector Bool 16) (k n : Nat) (h16 : k + n ≤ 16)
    (hf : ∀ l (h : l < 16), key[l] = false) : scanKeys key k n = none := by
  induction n generalizing k with
  | zero => rfl
  | succ n ih =>
    have hk16 : k < 16 := by omega
    simp only [scanKeys, Vector.getElem?_eq_getElem hk16, Option.getD_some, hf k hk16]
    exact ih (k + 1) (by omega)

/-! ## Timers (R105) -/

theorem decTimer_toNat (t : Byte) : (decTimer t).toNat = t.toNat - 1 := by
  unfold decTimer
  split
  · simp_all
  · rename_i h
    have h0 : t.toNat ≠ 0 := fun h' => h (BitVec.eq_of_toNat_eq h')
    have := t.isLt
    have h1 : (1 : Byte).toNat = 1 := rfl
    rw [BitVec.toNat_sub, h1]
    omega

/-- A tick touches the two timers and the model's count of strobe samples only. -/
theorem State.tick_eq (s : State) :
    s.tick = { s with dt := s.tick.dt, st := s.tick.st, strobes := s.tick.strobes } := by
  unfold State.tick State.takeStrobe
  split <;> split <;> rfl

theorem State.tick_due (s : State) (h : s.tickDue = true) :
    s.tick.dt = decTimer s.dt ∧ s.tick.st = decTimer s.st := by
  unfold State.tick
  rw [if_pos h]
  exact ⟨rfl, rfl⟩

theorem State.tick_notDue (s : State) (h : s.tickDue = false) : s.tick.dt = s.dt ∧ s.tick.st = s.st := by
  unfold State.tick State.takeStrobe
  rw [if_neg (by simp [h])]
  split <;> exact ⟨rfl, rfl⟩

theorem State.tickDue_iff (s : State) :
    s.tickDue = true ↔ s.cfg.timerMode = .coupled ∨ Config.timerStrobe s.strobes = true := by
  unfold State.tickDue
  cases s.cfg.timerMode <;> simp

theorem State.tick_strobes_coupled (s : State) (h : s.cfg.timerMode = .coupled) : s.tick.strobes = s.strobes := by
  have h' : s.takeStrobe = s := by simp [State.takeStrobe, h]
  unfold State.tick
  rw [h']
  split <;> rfl

/-! ## Ends of a handler (R106, R232) -/

theorem endHandler_ok (i : Instr) (s t : State) : endHandler i s (.ok t) = .next t := rfl

theorem endHandler_error (i : Instr) (s : State) (r : Raise) :
    endHandler i s (.error r) =
      .next { s with pc := s.pc - 2, fault := ⟨true, r.cause, s.pc - 2, encode i, r.addr⟩ } := rfl

/-- A handler always answers a next state. -/
theorem endHandler_next (i : Instr) (s : State) (e : Except Raise State) : ∃ t, endHandler i s e = .next t := by
  cases e <;> exact ⟨_, rfl⟩

/-- The PC of the cycle's start is 2 less than the one a handler sees. -/
@[simp] theorem pc_add_two_sub_two (a : Word) : a + 2 - 2 = a := by simp

/-! ## Placing an opcode -/

/-- A stored opcode is what the fetch reads. -/
theorem State.fetchWord_storeOpcode (s : State) (op : Word) (hw : Memory.wf s.cfg.font s.mem)
    (hpc : s.pc.toNat ≤ 0xFFE) : (s.storeOpcode op).fetchWord = op := by
  have h1 : Memory.wf (s.writeByte s.pc.toNat (highByte op)).cfg.font (s.writeByte s.pc.toNat (highByte op)).mem :=
    Memory.write_wf _ _ _ _ (by unfold memSize; omega) hw
  simp only [State.fetchWord, State.storeOpcode, State.writeByte_pc]
  rw [State.readByte_writeByte _ _ _ _ h1, State.readByte_writeByte _ _ _ _ h1, if_neg (by omega), if_pos rfl,
    State.readByte_writeByte _ _ _ _ hw, if_pos rfl, wordOfBytes_bytes]

theorem State.readyToFetch_spec (s : State) :
    s.readyToFetch.fault.faulted = false ∧ s.readyToFetch.pc.toNat ≤ 0xFFE := by
  unfold State.readyToFetch State.fetchOk
  constructor
  · cases h : s.fault.faulted <;> simp [h, FaultStatus.clear]
  · by_cases h : s.pc.toNat ≤ 0xFFE <;> simp [h]

/-- The placed opcode is what the next fetch reads, and the next fetch happens. -/
theorem State.placeOpcode_spec (s : State) (op : Word) (hw : Memory.wf s.cfg.font s.mem) :
    (s.placeOpcode op).fault.faulted = false ∧ (s.placeOpcode op).pc.toNat ≤ 0xFFE ∧
      (s.placeOpcode op).fetchWord = op :=
  ⟨s.readyToFetch_spec.1, s.readyToFetch_spec.2,
    State.fetchWord_storeOpcode s.readyToFetch op hw s.readyToFetch_spec.2⟩

end Sys2Proof.Machine
end

