-- ==== Sys2Proof/Laws/Draw.lean ====
section
/-! SUPPORT. The draw: a sprite is the list of its targeted cells, all different (R173), and drawing it XORs exactly those
cells and notes whether one of them was on. -/

namespace Sys2Proof.Machine

/-- The cells the set bits of one sprite row target, left to right. -/
def rowTargets (col row : Nat) (b : Byte) : List (Fin fbSize) :=
  ((List.range 8).filter fun k => b.getLsbD (7 - k)).map fun k => cellIndex (col + k) row

/-- The cells the set bits of a sprite target. -/
def spriteTargets (col row : Nat) : List Byte → List (Fin fbSize)
  | [] => []
  | b :: bs => rowTargets col row b ++ spriteTargets col (row + 1) bs

theorem drawRow_eq_foldl (col row : Nat) (b : Byte) (p : Canvas) :
    drawRow col row b p = (rowTargets col row b).foldl drawCell p := by
  unfold drawRow rowTargets
  rw [List.foldl_map, List.foldl_filter]

theorem drawRows_eq_foldl (col row : Nat) (bs : List Byte) (p : Canvas) :
    drawRows col row bs p = (spriteTargets col row bs).foldl drawCell p := by
  induction bs generalizing row p with
  | nil => rfl
  | cons b bs ih => rw [drawRows, ih, drawRow_eq_foldl, spriteTargets, List.foldl_append]

/-- Drawing different cells: each is XORed once, every other is kept, and the collision is whether one was on. -/
theorem foldl_drawCell (cs : List (Fin fbSize)) (hn : cs.Nodup) (p : Canvas) :
    (∀ c : Fin fbSize, (cs.foldl drawCell p).1[c] = if c ∈ cs then p.1[c] ^^^ 0xFF else p.1[c]) ∧
      (cs.foldl drawCell p).2 = (p.2 || cs.any fun c => p.1[c] == 0xFF) := by
  induction cs generalizing p with
  | nil => simp
  | cons d cs ih =>
    rw [List.nodup_cons] at hn
    obtain ⟨h1, h2⟩ := ih hn.2 (drawCell p d)
    have hget : ∀ c : Fin fbSize, (drawCell p d).1[c] = if c = d then p.1[c] ^^^ 0xFF else p.1[c] := by
      intro c
      simp only [drawCell, Fin.getElem_fin, Vector.getElem_set, Fin.ext_iff]
      split
      · rename_i h; simp [h]
      · rename_i h; rw [if_neg (Ne.symm h)]
    constructor
    · intro c
      rw [List.foldl_cons, h1 c, hget c]
      by_cases hc : c = d
      · subst hc; simp [hn.1]
      · simp [hc]
    · rw [List.foldl_cons, h2, List.any_cons]
      have : (cs.any fun c => (drawCell p d).1[c] == 0xFF) = cs.any fun c => p.1[c] == 0xFF := by
        rw [Bool.eq_iff_iff, List.any_eq_true, List.any_eq_true]
        constructor <;> rintro ⟨c, hc, h⟩ <;> refine ⟨c, hc, ?_⟩ <;>
          have hcd : c ≠ d := (fun h => hn.1 (h ▸ hc)) <;> simpa [hget c, hcd] using h
      rw [this]
      simp only [drawCell, Bool.or_assoc]

theorem mem_rowTargets (col row : Nat) (b : Byte) (c : Fin fbSize) :
    c ∈ rowTargets col row b ↔ ∃ k < 8, b.getLsbD (7 - k) = true ∧ c = cellIndex (col + k) row := by
  simp only [rowTargets, List.mem_map, List.mem_filter, List.mem_range]
  constructor
  · rintro ⟨k, ⟨h1, h2⟩, rfl⟩; exact ⟨k, h1, h2, rfl⟩
  · rintro ⟨k, h1, h2, rfl⟩; exact ⟨k, ⟨h1, h2⟩, rfl⟩

theorem mem_spriteTargets (col row : Nat) (bs : List Byte) (c : Fin fbSize) :
    c ∈ spriteTargets col row bs ↔
      ∃ (r : Nat) (h : r < bs.length), ∃ k < 8, bs[r].getLsbD (7 - k) = true ∧ c = cellIndex (col + k) (row + r) := by
  induction bs generalizing row with
  | nil => simp [spriteTargets]
  | cons b bs ih =>
    rw [spriteTargets, List.mem_append, mem_rowTargets, ih]
    constructor
    · rintro (⟨k, hk, hb, rfl⟩ | ⟨r, hr, k, hk, hb, rfl⟩)
      · exact ⟨0, by simp, k, hk, by simpa using hb, rfl⟩
      · exact ⟨r + 1, by simpa using hr, k, hk, by simpa using hb, by rw [Nat.add_assoc, Nat.add_comm 1]⟩
    · rintro ⟨r, hr, k, hk, hb, rfl⟩
      cases r with
      | zero => exact .inl ⟨k, hk, by simpa using hb, rfl⟩
      | succ r =>
        exact .inr ⟨r, by simpa using hr, k, hk, by simpa using hb, by rw [Nat.add_assoc, Nat.add_comm 1]⟩

/-- Equal cells: equal columns modulo 64 and equal rows modulo 32. -/
theorem cellIndex_inj (a b c d : Nat) (h : cellIndex a b = cellIndex c d) : a % 64 = c % 64 ∧ b % 32 = d % 32 := by
  have := congrArg Fin.val h
  simp only [cellIndex] at this
  omega

/-- No cell of a sprite of at most 32 rows is targeted twice (R173). -/
theorem nodup_spriteTargets (col row : Nat) (bs : List Byte) (h : bs.length ≤ 32) :
    (spriteTargets col row bs).Nodup := by
  induction bs generalizing row with
  | nil => exact List.nodup_nil
  | cons b bs ih =>
    have hlen : bs.length + 1 ≤ 32 := h
    rw [spriteTargets, List.nodup_append]
    refine ⟨?_, ih _ (by omega), ?_⟩
    · refine (List.nodup_range.filter _).map_on fun a ha c hc heq => ?_
      simp only [List.mem_filter, List.mem_range] at ha hc
      have := (cellIndex_inj _ _ _ _ heq).1
      omega
    · intro c hc d hd heq
      subst heq
      obtain ⟨k, hk, _, rfl⟩ := (mem_rowTargets _ _ _ _).1 hc
      obtain ⟨r, hr, j, hj, _, h⟩ := (mem_spriteTargets _ _ _ _).1 hd
      have := (cellIndex_inj _ _ _ _ h).2
      omega

/-- Drawing a sprite of at most 32 rows. -/
theorem drawRows_spec (col row : Nat) (bs : List Byte) (h : bs.length ≤ 32) (p : Canvas) :
    (∀ c : Fin fbSize, (drawRows col row bs p).1[c] =
      if c ∈ spriteTargets col row bs then p.1[c] ^^^ 0xFF else p.1[c]) ∧
    (drawRows col row bs p).2 = (p.2 || (spriteTargets col row bs).any fun c => p.1[c] == 0xFF) := by
  rw [drawRows_eq_foldl]
  exact foldl_drawCell _ (nodup_spriteTargets _ _ _ h) p

end Sys2Proof.Machine
end

