-- ==== Sys2Proof/Laws/PerInstr.lean ====
section
/-! SUPPORT. Per instruction: the family of its word. One lemma per constructor of `Instr`. -/

namespace Sys2Proof.Laws.FamilyNibble

/-- The leading nibble R80 gives the row of an instruction; a no-op's word is of family 0, 8, E or F (R84). -/
def Statement (i : Instr) : Prop :=
  match i with
  | .cls _ | .ret _ => Op.family (encode i) = 0x0
  | .jp _ => Op.family (encode i) = 0x1
  | .call _ => Op.family (encode i) = 0x2
  | .seImm _ _ => Op.family (encode i) = 0x3
  | .sneImm _ _ => Op.family (encode i) = 0x4
  | .seReg _ _ _ => Op.family (encode i) = 0x5
  | .ldImm _ _ => Op.family (encode i) = 0x6
  | .addImm _ _ => Op.family (encode i) = 0x7
  | .ldReg _ _ | .or _ _ | .and _ _ | .xor _ _ | .addReg _ _ | .sub _ _ | .shr _ _ | .subn _ _ | .shl _ _ =>
    Op.family (encode i) = 0x8
  | .sneReg _ _ _ => Op.family (encode i) = 0x9
  | .ldI _ => Op.family (encode i) = 0xA
  | .jpV0 _ => Op.family (encode i) = 0xB
  | .rnd _ _ => Op.family (encode i) = 0xC
  | .drw _ _ _ => Op.family (encode i) = 0xD
  | .skp _ _ | .sknp _ _ => Op.family (encode i) = 0xE
  | .ldVxDt _ | .ldVxK _ | .ldDtVx _ | .ldStVx _ | .addI _ | .ldF _ | .ldB _ | .ldStore _ | .ldLoad _ =>
    Op.family (encode i) = 0xF
  | .nop w => i.wellFormed = true →
    Op.family w = 0x0 ∨ Op.family w = 0x8 ∨ Op.family w = 0xE ∨ Op.family w = 0xF

theorem cls (ign : Byte) : Statement (.cls ign) := by
  simp [Statement, encode]

theorem ret (ign : Byte) : Statement (.ret ign) := by
  simp [Statement, encode]

theorem jp (nnn : Addr12) : Statement (.jp nnn) := by
  simp [Statement, encode]

theorem call (nnn : Addr12) : Statement (.call nnn) := by
  simp [Statement, encode]

theorem seImm (x : Reg) (kk : Byte) : Statement (.seImm x kk) := by
  simp [Statement, encode]

theorem sneImm (x : Reg) (kk : Byte) : Statement (.sneImm x kk) := by
  simp [Statement, encode]

theorem seReg (x y : Reg) (ign : BitVec 4) : Statement (.seReg x y ign) := by
  simp [Statement, encode]

theorem ldImm (x : Reg) (kk : Byte) : Statement (.ldImm x kk) := by
  simp [Statement, encode]

theorem addImm (x : Reg) (kk : Byte) : Statement (.addImm x kk) := by
  simp [Statement, encode]

theorem ldReg (x y : Reg) : Statement (.ldReg x y) := by
  simp [Statement, encode]

theorem or (x y : Reg) : Statement (.or x y) := by
  simp [Statement, encode]

theorem and (x y : Reg) : Statement (.and x y) := by
  simp [Statement, encode]

theorem xor (x y : Reg) : Statement (.xor x y) := by
  simp [Statement, encode]

theorem addReg (x y : Reg) : Statement (.addReg x y) := by
  simp [Statement, encode]

theorem sub (x y : Reg) : Statement (.sub x y) := by
  simp [Statement, encode]

theorem shr (x y : Reg) : Statement (.shr x y) := by
  simp [Statement, encode]

theorem subn (x y : Reg) : Statement (.subn x y) := by
  simp [Statement, encode]

theorem shl (x y : Reg) : Statement (.shl x y) := by
  simp [Statement, encode]

theorem sneReg (x y : Reg) (ign : BitVec 4) : Statement (.sneReg x y ign) := by
  simp [Statement, encode]

theorem ldI (nnn : Addr12) : Statement (.ldI nnn) := by
  simp [Statement, encode]

theorem jpV0 (nnn : Addr12) : Statement (.jpV0 nnn) := by
  simp [Statement, encode]

theorem rnd (x : Reg) (kk : Byte) : Statement (.rnd x kk) := by
  simp [Statement, encode]

theorem drw (x y : Reg) (n : BitVec 4) : Statement (.drw x y n) := by
  simp [Statement, encode]

theorem skp (x : Reg) (ign : BitVec 4) : Statement (.skp x ign) := by
  simp [Statement, encode]

theorem sknp (x : Reg) (ign : BitVec 4) : Statement (.sknp x ign) := by
  simp [Statement, encode]

theorem ldVxDt (x : Reg) : Statement (.ldVxDt x) := by
  simp [Statement, encode]

theorem ldVxK (x : Reg) : Statement (.ldVxK x) := by
  simp [Statement, encode]

theorem ldDtVx (x : Reg) : Statement (.ldDtVx x) := by
  simp [Statement, encode]

theorem ldStVx (x : Reg) : Statement (.ldStVx x) := by
  simp [Statement, encode]

theorem addI (x : Reg) : Statement (.addI x) := by
  simp [Statement, encode]

theorem ldF (x : Reg) : Statement (.ldF x) := by
  simp [Statement, encode]

theorem ldB (x : Reg) : Statement (.ldB x) := by
  simp [Statement, encode]

theorem ldStore (x : Reg) : Statement (.ldStore x) := by
  simp [Statement, encode]

theorem ldLoad (x : Reg) : Statement (.ldLoad x) := by
  simp [Statement, encode]

theorem nop (w : Word) : Statement (.nop w) := by
  intro h
  have h : isNopWord w = true := h
  unfold isNopWord at h
  simp only [Bool.or_eq_true, Bool.and_eq_true, beq_iff_eq] at h
  simp only [Op.family]
  tauto

end Sys2Proof.Laws.FamilyNibble
end

