-- ==== Sys2Proof/Laws/Step.lean ====
section
/-! SUPPORT. What a handler and a step can do, said once: the inversion lemmas that proofs over all instructions cite. -/

namespace Sys2Proof.Machine

/-- A result and a flag change the registers only. -/
theorem State.setRegAndFlag_eq (s : State) (x : Reg) (a b : Byte) :
    s.setRegAndFlag x a b = { s with v := (s.setRegAndFlag x a b).v } := by
  unfold State.setRegAndFlag; split <;> rfl

/-- A skip changes the PC only. -/
theorem State.skipIf_eq (s : State) (c : Bool) : s.skipIf c = { s with pc := (s.skipIf c).pc } := by
  unfold State.skipIf; split <;> rfl

/-- A block transfer's effect on I changes I only. -/
theorem State.blockAdvanceI_eq (s : State) (x : Reg) :
    s.blockAdvanceI x = { s with i := (s.blockAdvanceI x).i } := by
  unfold State.blockAdvanceI; split <;> rfl

/-- How a handler ends. -/
theorem endHandler_next_cases {i : Instr} {s t : State} {e : Except Raise State} (h : endHandler i s e = .next t) :
    e = .ok t ∨ ∃ r, e = .error r ∧ t = s.rewindPc.enterFault (encode i) r := by
  cases e with
  | ok u => cases h; exact .inl rfl
  | error r => cases h; exact .inr ⟨r, rfl, rfl⟩

/-- What a handler can do: raise, and then only the PC goes back and the fault status is written; or complete, and then
the keys, the fault status, the configuration and the count of strobe samples are as they were. -/
theorem exec_next_cases (i : Instr) (s t : State) (h : exec i s = .next t) :
    (∃ r, t = s.rewindPc.enterFault (encode i) r) ∨
    t = { s with
      mem := t.mem, v := t.v, i := t.i, pc := t.pc, stack := t.stack, sp := t.sp, dt := t.dt, st := t.st, fb := t.fb
      draws := t.draws } := by
  cases i
  case ret g =>
    rcases endHandler_next_cases h with h | ⟨r, _, h⟩
    · right; unfold State.popPc at h; split at h <;> cases h; rfl
    · exact .inl ⟨r, h⟩
  case call g =>
    rcases endHandler_next_cases h with h | ⟨r, _, h⟩
    · right; unfold State.pushPc at h; split at h <;> cases h; rfl
    · exact .inl ⟨r, h⟩
  case drw x y n =>
    rcases endHandler_next_cases h with h | ⟨r, _, h⟩
    · right
      cases hm : s.memReads s.i.toNat n.toNat <;> rw [hm] at h <;> cases h; rfl
    · exact .inl ⟨r, h⟩
  case skp x g =>
    rcases endHandler_next_cases h with h | ⟨r, _, h⟩
    · right
      cases hm : s.keyNamed x <;> rw [hm] at h <;> cases h
      dsimp only
      rw [State.skipIf_eq]
    · exact .inl ⟨r, h⟩
  case sknp x g =>
    rcases endHandler_next_cases h with h | ⟨r, _, h⟩
    · right
      cases hm : s.keyNamed x <;> rw [hm] at h <;> cases h
      dsimp only
      rw [State.skipIf_eq]
    · exact .inl ⟨r, h⟩
  case ldB x =>
    rcases endHandler_next_cases h with h | ⟨r, _, h⟩
    · right
      rw [s.memWrites_eq t _ _ h]
    · exact .inl ⟨r, h⟩
  case ldStore x =>
    rcases endHandler_next_cases h with h | ⟨r, _, h⟩
    · right
      cases hm : s.memWrites s.i.toNat (s.regsUpTo x) <;> rw [hm] at h <;> cases h
      dsimp only
      rw [State.blockAdvanceI_eq, s.memWrites_eq _ _ _ hm]
    · exact .inl ⟨r, h⟩
  case ldLoad x =>
    rcases endHandler_next_cases h with h | ⟨r, _, h⟩
    · right
      cases hm : s.memReads s.i.toNat (x.val + 1) <;> rw [hm] at h <;> cases h
      dsimp only
      rw [State.blockAdvanceI_eq, State.setRegs_eq]
    · exact .inl ⟨r, h⟩
  case ldVxK x =>
    right
    simp only [exec, execLdVxK] at h; split at h <;> cases h <;> rfl
  case seImm => right; cases h; rw [State.skipIf_eq]
  case sneImm => right; cases h; rw [State.skipIf_eq]
  case seReg => right; cases h; rw [State.skipIf_eq]
  case sneReg => right; cases h; rw [State.skipIf_eq]
  case addReg => right; cases h; rw [State.setRegAndFlag_eq]
  case sub => right; cases h; rw [State.setRegAndFlag_eq]
  case subn => right; cases h; rw [State.setRegAndFlag_eq]
  case shr => right; cases h; rw [State.setRegAndFlag_eq]
  case shl => right; cases h; rw [State.setRegAndFlag_eq]
  all_goals (right; cases h; rfl)

/-- What a step can do: nothing (faulted core), the fetch fault, or the decoded handler with the tick if it completed. -/
theorem step_next_cases (s t : State) (h : step s = .next t) :
    (s.fault.faulted = true ∧ t = s) ∨
    (s.fault.faulted = false ∧ 0xFFE < s.pc.toNat ∧ t = s.enterFault 0 ⟨.fetchOutOfBounds, s.pc⟩) ∨
    (s.fault.faulted = false ∧ s.pc.toNat ≤ 0xFFE ∧
      ∃ u, exec (decode s.fetchWord) s.advancePc = .next u ∧ t = if u.fault.faulted then u else u.tick) := by
  unfold step cycle at h
  split at h
  · rename_i hf
    cases h
    exact .inl ⟨hf, rfl⟩
  · rename_i hf
    have hf : s.fault.faulted = false := by simpa using hf
    split at h
    · rename_i hp
      cases he : exec (decode s.fetchWord) s.advancePc with
      | next u =>
        rw [he] at h
        cases h
        exact .inr (.inr ⟨hf, by simpa [State.fetchOk] using hp, u, rfl, rfl⟩)
      | fault r => exact nomatch r
      | refused r => rw [he] at h; cases h
    · rename_i hp
      cases h
      exact .inr (.inl ⟨hf, by simpa [State.fetchOk] using hp, rfl⟩)

/-- A step of a core that is not faulted and whose fetch is inside memory. -/
theorem step_of_exec (s u : State) (hf : s.fault.faulted = false) (hp : s.pc.toNat ≤ 0xFFE)
    (h : exec (decode s.fetchWord) s.advancePc = .next u) :
    step s = .next (if u.fault.faulted then u else u.tick) := by
  unfold step cycle
  rw [if_neg (by simp [hf]), if_pos (by simpa [State.fetchOk] using hp), h]
  rfl

/-- A step of a core that is not faulted and whose fetch leaves memory. -/
theorem step_of_fetch_fault (s : State) (hf : s.fault.faulted = false) (hp : 0xFFE < s.pc.toNat) :
    step s = .next (s.enterFault 0 ⟨.fetchOutOfBounds, s.pc⟩) := by
  unfold step cycle
  rw [if_neg (by simp [hf]), if_neg (by simpa [State.fetchOk] using hp)]

/-- A step of a faulted core. -/
theorem step_of_faulted (s : State) (hf : s.fault.faulted = true) : step s = .next s := by
  unfold step cycle
  rw [if_pos hf]

end Sys2Proof.Machine
end

