-- ==== Sys2Proof/Tests/Slice0.lean ====
section
/-! SUPPORT. The model's own tests. Expected values are those of spec/95_test_vectors.md (named `V-...`) or of the example
line of the rule cited; each runs one step. The last part shows, for every statement with hypotheses, a state and operands
that meet them. -/

namespace Sys2Proof.Tests

open Sys2Proof.Machine

/-! ## Builders -/

/-- A state with some registers set. -/
def withRegs (l : List (Reg × Byte)) (s : State) : State := l.foldl (fun s p => s.setReg p.1 p.2) s

/-- The reset state with some registers set. -/
def regs (l : List (Reg × Byte)) : State := withRegs l State.reset

/-- A state with some bytes of memory set from an address on. -/
def withBytes (a : Nat) (bs : List Byte) (s : State) : State := s.copyIn a bs

/-- A state with one key pressed. -/
def press (k : Fin 16) (s : State) : State := { s with key := s.key.set k true }

/-- A state with one frame-buffer cell on. -/
def light (col row : Nat) (s : State) : State := { s with fb := s.fb.set (cellIndex col row) 0xFF }

/-- A state with other configuration parameters. -/
def configured (c : Config) (s : State) : State := { s with cfg := c }

/-- What is read of the next state, if there is one. -/
def ofNext {α : Type} (f : State → α) : Host.Outcome State Fault Refusal → Option α
  | .next t => some (f t)
  | _ => none

/-- What is read of the state after one step at the state's PC, the opcode stored there. -/
def oneStep {α : Type} (op : Word) (s : State) (f : State → α) : Option α := ofNext f (step (s.storeOpcode op))

/-- The cells at the given places. -/
def cells (ps : List (Nat × Nat)) (t : State) : List Byte := ps.map fun p => t.fb[cellIndex p.1 p.2]

/-- The bytes at `a, a+1, …`. -/
def bytesAt (a n : Nat) (t : State) : List Byte := (List.range n).map fun k => t.readByte (a + k)

/-! ## WellFormed refuses an ill-formed term of its one check: a no-op that is another instruction's word -/

theorem test_nop_of_family_0_refused : (Instr.nop 0x00E0).wellFormed = false := by decide
theorem test_nop_of_family_1_refused : (Instr.nop 0x1234).wellFormed = false := by decide
theorem test_nop_of_family_8_refused : (Instr.nop 0x812E).wellFormed = false := by decide
theorem test_nop_of_family_E_refused : (Instr.nop 0xE0A1).wellFormed = false := by decide
theorem test_nop_of_family_F_refused : (Instr.nop 0xF165).wellFormed = false := by decide
theorem test_nop_of_nop_words_accepted :
    ([0x0123, 0x800F, 0xE0A0, 0xF0FF] : List Word).all (fun w => (Instr.nop w).wellFormed) = true := by decide

/-! ## Decoding: for every constructor a word written out from its row of R80 -/

theorem test_decode_family_0 :
    decode 0x00E0 = .cls 0x0E ∧ decode 0x0FF0 = .cls 0xFF ∧ decode 0x00EE = .ret 0x0E ∧ decode 0x0FFE = .ret 0xFF := by
  decide
theorem test_decode_direct_nnn :
    decode 0x1ABC = .jp 0xABC ∧ decode 0x2ABC = .call 0xABC ∧ decode 0xAABC = .ldI 0xABC ∧
    decode 0xBABC = .jpV0 0xABC := by decide
theorem test_decode_direct_xkk :
    decode 0x37C5 = .seImm 7 0xC5 ∧ decode 0x47C5 = .sneImm 7 0xC5 ∧ decode 0x67C5 = .ldImm 7 0xC5 ∧
    decode 0x77C5 = .addImm 7 0xC5 ∧ decode 0xC7C5 = .rnd 7 0xC5 := by decide
theorem test_decode_direct_xy :
    decode 0x5AB0 = .seReg 10 11 0 ∧ decode 0x9AB0 = .sneReg 10 11 0 ∧ decode 0xDABC = .drw 10 11 0xC := by decide
theorem test_decode_family_8 :
    decode 0x8AB0 = .ldReg 10 11 ∧ decode 0x8AB1 = .or 10 11 ∧ decode 0x8AB2 = .and 10 11 ∧
    decode 0x8AB3 = .xor 10 11 ∧ decode 0x8AB4 = .addReg 10 11 ∧ decode 0x8AB5 = .sub 10 11 ∧
    decode 0x8AB6 = .shr 10 11 ∧ decode 0x8AB7 = .subn 10 11 ∧ decode 0x8ABE = .shl 10 11 := by decide
theorem test_decode_family_E : decode 0xE79E = .skp 7 9 ∧ decode 0xE7A1 = .sknp 7 10 := by decide
theorem test_decode_family_F :
    decode 0xF707 = .ldVxDt 7 ∧ decode 0xF70A = .ldVxK 7 ∧ decode 0xF715 = .ldDtVx 7 ∧ decode 0xF718 = .ldStVx 7 ∧
    decode 0xF71E = .addI 7 ∧ decode 0xF729 = .ldF 7 ∧ decode 0xF733 = .ldB 7 ∧ decode 0xF755 = .ldStore 7 ∧
    decode 0xF765 = .ldLoad 7 := by decide
theorem test_decode_nop :
    decode 0x0123 = .nop 0x0123 ∧ decode 0x8008 = .nop 0x8008 ∧ decode 0xE0A0 = .nop 0xE0A0 ∧
    decode 0xF000 = .nop 0xF000 ∧ decode 0xF0FF = .nop 0xF0FF := by decide
/-- The words of V-L2-E2. -/
theorem test_decode_vector_E2 :
    ([0x0000, 0x0123, 0x0FF0, 0x0FFE, 0x5121, 0x8008, 0x9AB7, 0xE00E] : List Word).map (fun w => (decode w).handler) =
      [.cls, .nop, .cls, .ret, .seReg, .nop, .sneReg, .skp] ∧
    ([0xE19E, 0xE0A0, 0xE0A1, 0xE5F1, 0xF000, 0xF0FF, 0xF165, 0xF129] : List Word).map (fun w => (decode w).handler) =
      [.skp, .nop, .sknp, .sknp, .nop, .nop, .ldLoad, .ldF] := by decide
theorem test_decode_truncated : decodeBytes [0x12] = .error .truncated ∧ decodeBytes [] = .error .truncated := by decide
theorem test_decodeTableWord : decodeTableWord 16 0x1234 = some (.jp 0x234) := by decide
theorem test_encode_words :
    encode (.call 0x300) = 0x2300 ∧ encode (.addReg 1 2) = 0x8124 ∧ encode (.skp 4 9) = 0xE49E ∧
    encode (.ldB 1) = 0xF133 ∧ encode (.ret 0x0E) = 0x00EE := by decide

/-! ## Engine (V-L2-E) -/

/-- V-L2-E1 -/
theorem test_nop_advances_and_ticks :
    oneStep 0x800F { State.reset with dt := 3 } (fun t => (t.pc, t.dt, t.st)) = some (0x202, 2, 0) := by decide
/-- V-L2-E4: an odd PC. -/
theorem test_odd_pc :
    oneStep 0x6012 { State.reset with pc := 0x201 } (fun t => (t.reg 0, t.pc)) = some (0x12, 0x203) := by decide
/-- V-L2-E5: the last address an opcode can be fetched from. -/
theorem test_fetch_at_FFE :
    oneStep 0x6007 { State.reset with pc := 0xFFE } (fun t => (t.reg 0, t.pc, t.fault.faulted)) =
      some (7, 0x1000, false) := by decide
/-- V-L2-E6 -/
theorem test_fetch_past_FFE :
    ofNext (fun t => (t.fault, t.pc, t.dt)) (step { State.reset with pc := 0xFFF, dt := 5 }) =
      some (⟨true, .fetchOutOfBounds, 0xFFF, 0, 0xFFF⟩, 0xFFF, 5) := by decide
/-- V-L2-E7 -/
theorem test_faulted_core_does_nothing :
    oneStep 0x6012 { State.reset with dt := 5, fault := ⟨true, .stackUnderflow, 0x200, 0xEE, 0⟩ }
      (fun t => (t.pc, t.dt, t.reg 0, t.fault)) =
      some (0x200, 5, 0, ⟨true, .stackUnderflow, 0x200, 0xEE, 0⟩) := by decide
/-- R266: with nothing loaded the first cycle runs CLS. -/
theorem test_first_cycle_of_empty_memory :
    State.reset.fetchWord = 0x0000 ∧ ofNext (fun t => t.pc) (step State.reset) = some 0x202 := by decide

/-! ## Control flow (V-L2-F) -/

/-- V-L2-F15 -/
theorem test_ret :
    oneStep 0x00EE { State.reset with sp := 4, stack := State.reset.stack.set 3 0x0ABC }
      (fun t => (t.pc, t.sp.val, t.stack[3])) = some (0x0ABC, 3, 0x0ABC) := by decide
/-- V-L2-F1 -/
theorem test_ret_underflow :
    oneStep 0x00EE { State.reset with dt := 4 } (fun t => (t.fault, t.pc, t.sp.val, t.dt)) =
      some (⟨true, .stackUnderflow, 0x200, 0x00EE, 0⟩, 0x200, 0, 4) := by decide
/-- V-L2-E3 -/
theorem test_jp : oneStep 0x1234 State.reset (fun t => t.pc) = some 0x234 := by decide
/-- V-L2-F3 -/
theorem test_call_sixteenth :
    oneStep 0x2300 { State.reset with sp := 15 } (fun t => (t.stack[15], t.sp.val, t.pc)) = some (0x0202, 16, 0x300) := by
  decide
/-- V-L2-F2 -/
theorem test_call_overflow :
    oneStep 0x2300 { State.reset with sp := 16 } (fun t => (t.fault, t.pc, t.sp.val)) =
      some (⟨true, .stackOverflow, 0x200, 0x2300, 16⟩, 0x200, 16) := by decide
/-- V-L2-F6: the sum is not reduced modulo 0x1000. -/
theorem test_jpV0_not_reduced : oneStep 0xBFF0 (regs [(0, 0x20)]) (fun t => t.pc) = some 0x1010 := by decide
/-- V-L2-F7 -/
theorem test_jpV0_legal : oneStep 0xB0FF (regs [(0, 0xFF)]) (fun t => t.pc) = some 0x1FE := by decide
/-- V-L2-F11 -/
theorem test_seImm_vf : oneStep 0x3F01 (regs [(15, 1)]) (fun t => t.pc) = some 0x204 := by decide
/-- The second example of R127. -/
theorem test_seImm_not : oneStep 0x3342 (regs [(3, 0x41)]) (fun t => t.pc) = some 0x202 := by decide
/-- V-L2-F12 -/
theorem test_sneImm_equal : oneStep 0x4300 State.reset (fun t => t.pc) = some 0x202 := by decide
/-- The second example of R128. -/
theorem test_sneImm_differs : oneStep 0x4342 (regs [(3, 0x41)]) (fun t => t.pc) = some 0x204 := by decide
/-- V-L2-F10: the trailing nibble is ignored. -/
theorem test_seReg_noncanonical : oneStep 0x512F (regs [(1, 7), (2, 7)]) (fun t => t.pc) = some 0x204 := by decide
/-- R129: unequal registers. -/
theorem test_seReg_differs : oneStep 0x5120 (regs [(1, 7), (2, 8)]) (fun t => t.pc) = some 0x202 := by decide
/-- V-L2-F9 -/
theorem test_sneReg_same : oneStep 0x9110 (regs [(1, 9)]) (fun t => t.pc) = some 0x202 := by decide
/-- The example of R130. -/
theorem test_sneReg_differs : oneStep 0x9120 (regs [(1, 7), (2, 8)]) (fun t => t.pc) = some 0x204 := by decide

/-! ## ALU (V-L1, V-L2-A) -/

/-- V-L2-A1 -/
theorem test_ldImm_vf : oneStep 0x6FAB State.reset (fun t => t.reg 15) = some 0xAB := by decide
/-- V-L2-A2 -/
theorem test_addImm_no_carry_flag :
    oneStep 0x7101 (regs [(1, 0xFF), (15, 0x55)]) (fun t => (t.reg 1, t.reg 15)) = some (0x00, 0x55) := by decide
/-- V-L2-A4 -/
theorem test_ldReg : oneStep 0x8530 (regs [(3, 9)]) (fun t => (t.reg 5, t.reg 3)) = some (9, 9) := by decide
/-- V-L2-A5 -/
theorem test_or : oneStep 0x8121 (regs [(1, 0x0C), (2, 0x0A), (15, 0x77)]) (fun t => (t.reg 1, t.reg 15)) =
    some (0x0E, 0x77) := by decide
/-- V-L2-A5 -/
theorem test_and : oneStep 0x8122 (regs [(1, 0x0C), (2, 0x0A), (15, 0x77)]) (fun t => (t.reg 1, t.reg 15)) =
    some (0x08, 0x77) := by decide
/-- V-L2-A5 -/
theorem test_xor : oneStep 0x8123 (regs [(1, 0x0C), (2, 0x0A), (15, 0x77)]) (fun t => (t.reg 1, t.reg 15)) =
    some (0x06, 0x77) := by decide
/-- V-L1-2, V-L2-A7 -/
theorem test_addReg_carry :
    oneStep 0x8124 (regs [(1, 0xFF), (2, 0x02)]) (fun t => (t.reg 1, t.reg 15)) = some (0x01, 1) ∧
    oneStep 0x8124 (regs [(1, 0xFE), (2, 0x01)]) (fun t => (t.reg 1, t.reg 15)) = some (0xFF, 0) := by decide
/-- V-L2-E8: VF as destination, in both orders. -/
theorem test_addReg_into_vf :
    oneStep 0x8F14 (regs [(15, 0x10), (1, 0x05)]) (fun t => t.reg 15) = some 0 ∧
    oneStep 0x8F14 (configured { Config.default with vfOrder := .resultLast } (regs [(15, 0x10), (1, 0x05)]))
      (fun t => t.reg 15) = some 0x15 := by decide
/-- V-L1-5 -/
theorem test_sub_wraps : oneStep 0x8125 (regs [(1, 3), (2, 5)]) (fun t => (t.reg 1, t.reg 15)) = some (254, 0) := by
  decide
/-- V-L2-A11: the comparison is strict. -/
theorem test_sub_equal : oneStep 0x8125 (regs [(1, 7), (2, 7)]) (fun t => (t.reg 1, t.reg 15)) = some (0, 0) := by decide
/-- V-L2-A18 -/
theorem test_shr : oneStep 0x8106 (regs [(1, 0xFF)]) (fun t => (t.reg 1, t.reg 15)) = some (0x7F, 1) := by decide
/-- V-L2-A20, with SHIFT_SRC = vy. -/
theorem test_shr_vy :
    oneStep 0x8126 (configured { Config.default with shiftSrc := .vy } (regs [(1, 0x01), (2, 0x04)]))
      (fun t => (t.reg 1, t.reg 15, t.reg 2)) = some (0x02, 0, 0x04) := by decide
/-- V-L2-A15, V-L2-A17 -/
theorem test_subn :
    oneStep 0x8127 (regs [(1, 1), (2, 0)]) (fun t => (t.reg 1, t.reg 15)) = some (0xFF, 0) ∧
    oneStep 0x8127 (regs [(1, 0), (2, 0xFF)]) (fun t => (t.reg 1, t.reg 15)) = some (0xFF, 1) := by decide
/-- V-L2-A19 -/
theorem test_shl : oneStep 0x810E (regs [(1, 0x80)]) (fun t => (t.reg 1, t.reg 15)) = some (0x00, 1) := by decide
/-- V-L2-A21, with SHIFT_SRC = vy. -/
theorem test_shl_vy :
    oneStep 0x812E (configured { Config.default with shiftSrc := .vy } (regs [(2, 0x81)]))
      (fun t => (t.reg 1, t.reg 15)) = some (0x02, 1) := by decide
/-- V-L2-A25 for every draw, and the draw is taken. -/
theorem test_rnd_masked :
    ∃ t, exec (.rnd 3 0x00) State.reset = .next t ∧ t.reg 3 = 0x00 ∧ t.draws = 1 :=
  ⟨_, rfl, by rw [State.reg, State.takeDraw, State.setReg]; simp, rfl⟩

/-! ## Display (V-L1, V-L2-D) -/

/-- V-L2-D1 -/
theorem test_cls :
    oneStep 0x00E0 (light 5 5 (light 63 31 (regs [(15, 0x33)])))
      (fun t => (cells [(5, 5), (63, 31)] t, t.reg 15)) = some ([0, 0], 0x33) := by decide +kernel
/-- V-L2-D5: both coordinates wrap. -/
theorem test_drw_wraps :
    oneStep 0xD122 (withBytes 0x300 [0xC0, 0xC0] { regs [(1, 63), (2, 31)] with i := 0x300 })
      (fun t => (cells [(63, 31), (0, 31), (63, 0), (0, 0), (1, 31), (62, 31)] t, t.reg 15)) =
      some ([0xFF, 0xFF, 0xFF, 0xFF, 0, 0], 0) := by decide +kernel
/-- V-L2-D11, V-L2-D8: a collision, and a sprite that leaves memory. -/
theorem test_drw_collides_and_faults :
    oneStep 0xD121 (light 1 0 (withBytes 0x300 [0xC0] { State.reset with i := 0x300 }))
      (fun t => (cells [(0, 0), (1, 0)] t, t.reg 15)) = some ([0xFF, 0], 1) ∧
    oneStep 0xD123 (withBytes 0xFFE [0xFF, 0xFF] { regs [(15, 0x44)] with i := 0xFFE })
      (fun t => (cells [(0, 0), (0, 1)] t, t.reg 15, t.fault)) =
      some ([0, 0], 0x44, ⟨true, .readOutOfBounds, 0x200, 0xD123, 0x1000⟩) := by decide +kernel

/-! ## Keys and timers (V-L2-K) -/

/-- V-L2-K4 -/
theorem test_skp : oneStep 0xE11E (press 3 (regs [(1, 3)])) (fun t => t.pc) = some 0x204 := by decide
/-- V-L2-K1 -/
theorem test_skp_faults :
    oneStep 0xE29E (regs [(2, 0x10)]) (fun t => (t.fault, t.pc)) =
      some (⟨true, .keyIndexOutOfRange, 0x200, 0xE29E, 0x10⟩, 0x200) := by decide
/-- V-L2-K3, and the example of R181. -/
theorem test_sknp :
    oneStep 0xE1A1 (press 3 (regs [(1, 3)])) (fun t => t.pc) = some 0x202 ∧
    oneStep 0xE4A1 (regs [(4, 0x0A)]) (fun t => t.pc) = some 0x204 := by decide
/-- V-L2-K2 -/
theorem test_sknp_faults :
    oneStep 0xE2A1 (regs [(2, 0xFF)]) (fun t => t.fault) =
      some ⟨true, .keyIndexOutOfRange, 0x200, 0xE2A1, 0xFF⟩ := by decide
/-- V-L2-K6: the lowest index wins. -/
theorem test_ldVxK_lowest :
    oneStep 0xF50A (press 0xB (press 2 State.reset)) (fun t => (t.reg 5, t.pc)) = some (2, 0x202) := by decide
/-- V-L2-K8 -/
theorem test_ldVxK_waits :
    oneStep 0xF00A { State.reset with dt := 3, st := 1 } (fun t => (t.pc, t.dt, t.st, t.reg 0)) =
      some (0x200, 2, 0, 0) := by decide
/-- V-L2-K11 -/
theorem test_ldVxDt : oneStep 0xF307 { State.reset with dt := 1 } (fun t => (t.reg 3, t.dt)) = some (1, 0) := by decide
/-- V-L2-K9 -/
theorem test_ldDtVx :
    oneStep 0xF215 (regs [(2, 0xFF)]) (fun t => t.dt) = some 0xFE ∧
    oneStep 0xF215 (regs [(2, 0)]) (fun t => t.dt) = some 0 := by decide
/-- V-L2-K12 -/
theorem test_ldStVx : oneStep 0xF218 (regs [(2, 2)]) (fun t => (t.st, t.dt)) = some (1, 0) := by decide
/-- V-L2-K13: in external mode the tick is the strobe's, whatever the strobe is. -/
theorem test_external_tick (s : State) (h : s.cfg.timerMode = .external) :
    s.tick.dt = (if Config.timerStrobe s.strobes then decTimer s.dt else s.dt) ∧ s.tick.strobes = s.strobes + 1 := by
  unfold State.tick State.tickDue State.takeStrobe
  rw [h]
  cases Config.timerStrobe s.strobes <;> exact ⟨rfl, rfl⟩

/-! ## Index register and memory (V-L2-M) -/

/-- V-L2-M1 -/
theorem test_ldI : oneStep 0xAFFF State.reset (fun t => t.i) = some 0x0FFF := by decide
/-- V-L2-M2 -/
theorem test_addI_no_flag :
    oneStep 0xF11E { regs [(1, 1), (15, 0x22)] with i := 0x0FFF } (fun t => (t.i, t.reg 15)) = some (0x1000, 0x22) := by
  decide
/-- V-L2-M3 -/
theorem test_addI_wraps : oneStep 0xF11E { regs [(1, 2)] with i := 0xFFFF } (fun t => t.i) = some 0x0001 := by decide
/-- V-L2-M4 -/
theorem test_ldF :
    oneStep 0xF129 (regs [(1, 0x0F)]) (fun t => t.i) = some 0x09B ∧
    oneStep 0xF129 (regs [(1, 0xFF)]) (fun t => t.i) = some 0x54B := by decide
/-- V-L1-7, V-L2-M8 -/
theorem test_ldB :
    oneStep 0xF133 { regs [(1, 158)] with i := 0x300 } (bytesAt 0x300 3) = some [1, 5, 8] ∧
    oneStep 0xF033 { regs [(0, 123)] with i := 0x050 } (bytesAt 0x050 4) = some [1, 2, 3, 0x90] := by decide
/-- V-L2-M6: no byte of a faulting store stays. -/
theorem test_ldB_faults :
    oneStep 0xF133 { regs [(1, 123)] with i := 0xFFE } (fun t => (t.fault, bytesAt 0xFFE 2 t)) =
      some (⟨true, .writeOutOfBounds, 0x200, 0xF133, 0x1000⟩, [0, 0]) := by decide
/-- The example of R208, and V-L2-M10. -/
theorem test_ldStore :
    oneStep 0xF255 { regs [(0, 1), (1, 2), (2, 3)] with i := 0x300 } (fun t => (bytesAt 0x300 4 t, t.i)) =
      some ([1, 2, 3, 0], 0x300) ∧
    oneStep 0xF055 (configured { Config.default with blockIncI := true } { regs [(0, 0x99)] with i := 0x300 })
      (fun t => (t.readByte 0x300, t.i)) = some (0x99, 0x301) := by decide
/-- V-L2-M15: a store over the storing instruction. -/
theorem test_ldStore_over_itself :
    oneStep 0xF155 { regs [(0, 0x12), (1, 0x00)] with i := 0x200 } (fun t => (bytesAt 0x200 2 t, t.pc)) =
      some ([0x12, 0x00], 0x202) := by decide
/-- V-L2-M13: the font is in place, and no register past Vx is written. -/
theorem test_ldLoad :
    oneStep 0xF465 { regs [(5, 0x77)] with i := 0x050 } (fun t => (t.v.toList.take 6, t.i)) =
      some ([0xF0, 0x90, 0x90, 0x90, 0xF0, 0x77], 0x050) := by decide
/-- V-L2-M11 -/
theorem test_ldLoad_faults :
    oneStep 0xFF65 { regs [(0, 5)] with i := 0xFF1 } (fun t => (t.fault, t.reg 0)) =
      some (⟨true, .readOutOfBounds, 0x200, 0xFF65, 0x1000⟩, 5) := by decide

/-! ## Memory and the host port -/

/-- Writing what an unlisted address reads as removes the entry. -/
theorem test_write_keeps_canonical_form :
    Memory.write Font.default (Memory.write Font.default [] 0x300 7) 0x300 0 = [] ∧
    Memory.write Font.default [] 0x050 0xF0 = [] ∧
    Memory.write Font.default [(0x300, 7)] 0x050 0 = [(0x050, 0), (0x300, 7)] := by decide
/-- R263 -/
theorem test_load :
    (State.reset.load (some [0x12, 0x34])).1 = .ok ∧ (State.reset.load (some [0x12, 0x34])).2.fetchWord = 0x1234 := by
  decide
/-- The placed word is fetched, even from a state that is halted and past the end. -/
theorem test_withFetchWord :
    (State.reset.withFetchWord 16 0x6A42).fetchWord = 0x6A42 ∧
    (State.withFetchWord { State.reset with pc := 0xFFF } 16 0x6A42).fetchWord = 0x6A42 := by decide
/-- R269: initialize clears a fault. -/
theorem test_init_clears_fault :
    (State.init { State.reset with fault := ⟨true, .stackUnderflow, 0x200, 0xEE, 0⟩ }) = State.reset := by rfl

/-! ## Witnesses: the hypotheses of each statement can be met, at the ends of their ranges -/

/-- A state about to fetch the opcode `op` at `pc`. -/
def about (pc : Word) (op : Word) (s : State) : State := State.storeOpcode { s with pc := pc } op

/-- A state halted by a fault. -/
def halted : State := { State.reset with fault := ⟨true, .stackUnderflow, 0x200, 0xEE, 0⟩ }

/-- A state with a stored opcode, a pixel on and a register set, for the statements about every state. -/
def sample : State := light 3 4 (about 0x200 0x6A42 (regs [(1, 7)]))

theorem sample_inv : sample.Inv := by
  refine ⟨by decide, fun c => ?_, by unfold State.faultLegal; decide⟩
  have h : sample.fb = (Vector.replicate fbSize (0x00 : Byte)).set (cellIndex 3 4) 0xFF := rfl
  rw [h, Fin.getElem_fin, Vector.getElem_set]
  split
  · exact .inr rfl
  · exact .inl (by simp)

theorem test_witness_LoadCopiesVerbatimOrChangesNothing :
    3584 < (List.replicate 3585 (0xAB : Byte)).length ∧ State.reset = State.reset.init ∧
    (List.replicate 3584 (0xAB : Byte)).length ≤ 3584 ∧ ([] : List Byte).length ≤ 3584 ∧
    3583 < (List.replicate 3584 (0xAB : Byte)).length ∧ (0x1FF < 0x200 ∨ 0x200 + 3584 ≤ 0x1FF) := by
  refine ⟨?_, rfl, ?_, ?_, ?_, by decide⟩ <;> simp only [List.length_replicate, List.length_nil] <;> decide

theorem test_witness_EveryStepKeepsInvariant : ∃ s t : State, s.Inv ∧ step s = .next t ∧ t.reg 10 = 0x42 :=
  ⟨sample, _, sample_inv, rfl, by decide⟩

theorem test_witness_HostMovesKeepInvariant :
    (∃ s t : State, s.Inv ∧ HostMove s t ∧ t.key[5] = true) ∧ (∃ s t : State, s.Inv ∧ HostMove s t ∧ t = s.init) ∧
    (∃ s t : State, s = s.init ∧ HostMove s t ∧ t.readByte 0x200 = 0x12) :=
  ⟨⟨sample, _, sample_inv, .keys _ (Vector.replicate 16 true), by decide⟩, ⟨sample, _, sample_inv, .init _, rfl⟩,
    ⟨State.reset, _, rfl, .load _ (some [0x12, 0x34]) rfl, by decide⟩⟩

theorem test_witness_ConfigurationIsFixed :
    (∃ s t, step s = .next t) ∧ (∃ i s t, exec i s = .next t) ∧ (∃ s t, HostMove s t) :=
  ⟨⟨sample, _, rfl⟩, ⟨.addReg 1 2, sample, _, rfl⟩, ⟨sample, _, .init _⟩⟩

theorem test_witness_KeysAreReadByThreeAndWrittenByNone :
    (∃ s t, step s = .next t) ∧
    Handler.drw ≠ .skp ∧ Handler.drw ≠ .sknp ∧ Handler.drw ≠ .ldVxK ∧ (Instr.drw 1 2 5).handler = .drw :=
  ⟨⟨sample, _, rfl⟩, by decide⟩

theorem test_witness_RegistersChangeOnlyByTheirWriters :
    (∃ s t, exec (.ldImm 15 5) s = .next t ∧ t.reg 15 ≠ s.reg 15) ∧
    (∃ s t, exec (.ldI 0xFFF) s = .next t ∧ t.i ≠ s.i) ∧
    (∃ s t, s.cfg.blockIncI = true ∧ exec (.ldStore 0) s = .next t ∧ t.i ≠ s.i) ∧
    (∃ s t, exec (.ldDtVx 1) s = .next t ∧ t.dt ≠ s.dt) ∧ (∃ s t, exec (.ldStVx 1) s = .next t ∧ t.st ≠ s.st) ∧
    (∃ s t, exec (.jp 0xFFF) s = .next t ∧ t.pc ≠ s.pc) ∧
    (∃ s t, exec (.ret 0x0E) s = .next t ∧ t.pc ≠ s.pc ∧ faultDue (.ret 0x0E) s ≠ none) :=
  ⟨⟨sample, _, rfl, by decide⟩, ⟨sample, _, rfl, by decide⟩,
    ⟨configured { Config.default with blockIncI := true } sample, _, rfl, rfl, by decide⟩,
    ⟨sample, _, rfl, by decide⟩, ⟨sample, _, rfl, by decide⟩, ⟨sample, _, rfl, by decide⟩,
    ⟨sample, _, rfl, by decide, by decide⟩⟩

theorem test_witness_MemoryIsReachedByFourHandlersOnly :
    (Instr.addReg 1 2).handler ∉ ([.drw, .ldB, .ldStore, .ldLoad] : List Handler) ∧
    ∃ s t, (Instr.drw 1 2 5).handler ∉ ([.ldB, .ldStore] : List Handler) ∧ exec (.drw 1 2 5) s = .next t :=
  ⟨by decide, sample, _, by decide, rfl⟩

theorem test_witness_FetchFaultsExactlyPastFFE :
    (∃ s : State, s.fault.faulted = false ∧ 0xFFE < s.pc.toNat ∧ s.pc = 0xFFF) ∧
    (∃ s t : State, s.fault.faulted = false ∧ step s = .next t ∧ s.pc.toNat ≤ 0xFFE ∧ s.pc = 0xFFE ∧
      t.fault.faulted = true) :=
  ⟨⟨{ sample with pc := 0xFFF }, by decide⟩, ⟨about 0xFFE 0x00EE sample, _, rfl, rfl, by decide, rfl, by decide⟩⟩

/-- The last place where the stored opcode can be fetched. -/
theorem test_witness_StoreIsSeenByTheNextFetch :
    let s : State := { about 0xFFC 0xF155 (regs [(0, 0x60), (1, 0x42)]) with i := 0xFFE }
    Memory.wf s.cfg.font s.mem ∧ s.fault.faulted = false ∧ decode s.fetchWord = .ldStore 1 ∧ 1 ≤ (1 : Reg).val ∧
      s.pc.toNat ≤ 0xFFE ∧ s.i = s.pc + 2 ∧ s.i.toNat + (1 : Reg).val ≤ 0xFFF := by decide

theorem test_witness_DecodeOfEncodeIsTheInstruction :
    (Instr.nop 0xF0FF).wellFormed = true ∧ (Instr.drw 15 15 0xF).wellFormed = true ∧
    (Instr.ret 0xFF).wellFormed = true := by decide

theorem test_witness_StepRunsTheDecodedInstruction :
    halted.fault.faulted = true ∧
    (∃ s : State, s.fault.faulted = false ∧ 0xFFE < s.pc.toNat ∧ s.pc = 0xFFF) ∧
    (∃ s : State, s.fault.faulted = false ∧ s.pc.toNat ≤ 0xFFE ∧ s.pc = 0xFFE ∧
      decode ((s.readByte s.pc.toNat).setWidth 16 <<< 8 ||| (s.readByte (s.pc.toNat + 1)).setWidth 16) = .jp 0xFFE) :=
  ⟨rfl, ⟨{ sample with pc := 0xFFF }, by decide⟩, ⟨about 0xFFE 0x1FFE sample, by decide⟩⟩

theorem test_witness_PlacedWordIsRunNext : Memory.wf sample.cfg.font sample.mem ∧ 0xFFFF < 2 ^ 16 := by decide

theorem test_witness_TickFollowsEveryCompletedHandler :
    (∃ s u : State, s.fault.faulted = false ∧ s.pc.toNat ≤ 0xFFE ∧
      exec (decode s.fetchWord) { s with pc := s.pc + 2 } = .next u ∧ u.fault.faulted = true) ∧
    (∃ s u : State, s.fault.faulted = false ∧ s.pc.toNat ≤ 0xFFE ∧
      exec (decode s.fetchWord) { s with pc := s.pc + 2 } = .next u ∧ u.fault.faulted = false ∧
      s.cfg.timerMode = .coupled) ∧
    (∃ s u : State, s.fault.faulted = false ∧ s.pc.toNat ≤ 0xFFE ∧
      exec (decode s.fetchWord) { s with pc := s.pc + 2 } = .next u ∧ u.fault.faulted = false ∧
      s.cfg.timerMode = .external) :=
  ⟨⟨about 0x200 0x00EE sample, _, rfl, by decide, rfl, by decide⟩, ⟨sample, _, rfl, by decide, rfl, by decide, rfl⟩,
    ⟨configured { Config.default with timerMode := .external } sample, _, rfl, by decide, rfl, by decide, rfl⟩⟩

theorem test_witness_FaultedCoreStaysHaltedUntilInitialize :
    halted.fault.faulted = true ∧
    ∃ t, HostMove halted t ∧ halted.fault.faulted = true ∧ t.fault.faulted = false :=
  ⟨rfl, _, .init _, rfl, rfl⟩

theorem test_witness_FaultingCycleIsDiscarded :
    (∃ s t : State, s.fault.faulted = false ∧ step s = .next t ∧ t.fault.faulted = true ∧ s.pc = 0x200) ∧
    (∃ s t : State, s.fault.faulted = false ∧ step s = .next t ∧ t.fault.faulted = true ∧ s.pc = 0xFFF) :=
  ⟨⟨about 0x200 0x00EE sample, _, rfl, rfl, by decide, rfl⟩, ⟨{ sample with pc := 0xFFF }, _, rfl, rfl, rfl, rfl⟩⟩

/-- Every cause is due somewhere, and no cause where the tabulated condition just fails. -/
theorem test_witness_CausesAreRaisedExactlyAsTabulated :
    faultDue (.drw 1 2 2) { sample with i := 0xFFF } = some (.readOutOfBounds, 0x1000) ∧
    faultDue (.drw 1 2 1) { sample with i := 0xFFF } = none ∧
    faultDue (.ldLoad 0) { sample with i := 0x1234 } = some (.readOutOfBounds, 0x1234) ∧
    faultDue (.ldLoad 0) { sample with i := 0xFFF } = none ∧
    faultDue (.ldB 1) { sample with i := 0xFFE } = some (.writeOutOfBounds, 0x1000) ∧
    faultDue (.ldB 1) { sample with i := 0xFFD } = none ∧
    faultDue (.ldStore 15) { sample with i := 0xFF1 } = some (.writeOutOfBounds, 0x1000) ∧
    faultDue (.ldStore 15) { sample with i := 0xFF0 } = none ∧
    faultDue (.call 0x300) { sample with sp := 16 } = some (.stackOverflow, 16) ∧
    faultDue (.call 0x300) { sample with sp := 15 } = none ∧
    faultDue (.ret 0x0E) { sample with sp := 0 } = some (.stackUnderflow, 0) ∧
    faultDue (.ret 0x0E) { sample with sp := 1 } = none ∧
    faultDue (.skp 1 9) (regs [(1, 16)]) = some (.keyIndexOutOfRange, 16) ∧
    faultDue (.sknp 1 10) (regs [(1, 15)]) = none := by decide

theorem test_witness_NoOpDoesNothing :
    (∀ r ∈ opcodeRows, (0x800F : Word) &&& r.mask ≠ r.pat) ∧
    (let s := about 0xFFE 0x0123 sample
     s.fault.faulted = false ∧ s.pc.toNat ≤ 0xFFE ∧ ∀ r ∈ opcodeRows, s.fetchWord &&& r.mask ≠ r.pat) := by decide

theorem test_witness_IdleLoopChangesOnlyTheTimers : (about 0x200 0x1200 sample).idle ∧ (about 0xFFE 0x1FFE sample).idle := by
  unfold State.idle; decide

/-- The words that the encoding lines of the instruction rules give as canonical spellings meet their mask and match. -/
theorem test_witness_EncodedAs :
    ([(0x00E0, 0x0000), (0x00EE, 0x000E), (0x8120, 0x8000), (0x8121, 0x8001), (0x8122, 0x8002), (0x8123, 0x8003),
      (0x8124, 0x8004), (0x8125, 0x8005), (0x8126, 0x8006), (0x8127, 0x8007), (0x812E, 0x800E), (0xE19E, 0xE00E),
      (0xE1A1, 0xE001)] : List (Word × Word)).all (fun p => p.1 &&& 0xF00F == p.2) = true ∧
    ([(0x1234, 0x1000), (0x2300, 0x2000), (0x3342, 0x3000), (0x4342, 0x4000), (0x5120, 0x5000), (0x6A42, 0x6000),
      (0x71FF, 0x7000), (0x9120, 0x9000), (0xA2F0, 0xA000), (0xB234, 0xB000), (0xC30F, 0xC000), (0xD125, 0xD000)] :
      List (Word × Word)).all (fun p => p.1 &&& 0xF000 == p.2) = true ∧
    ([(0xF207, 0xF007), (0xF30A, 0xF00A), (0xF215, 0xF015), (0xF218, 0xF018), (0xF11E, 0xF01E), (0xF229, 0xF029),
      (0xF133, 0xF033), (0xF255, 0xF055), (0xF265, 0xF065)] : List (Word × Word)).all
      (fun p => p.1 &&& 0xF0FF == p.2) = true := by decide

theorem test_witness_RetPopsThePc :
    (∃ s : State, s.sp ≠ 0 ∧ s.sp = 1) ∧ (∃ s : State, s.sp ≠ 0 ∧ s.sp = 16) ∧ (∃ s : State, s.sp = 0) :=
  ⟨⟨{ sample with sp := 1 }, by decide⟩, ⟨{ sample with sp := 16 }, by decide⟩, ⟨sample, rfl⟩⟩

theorem test_witness_CallPushesThePc :
    (∃ s : State, s.sp.val < 16 ∧ s.sp = 0) ∧ (∃ s : State, s.sp.val < 16 ∧ s.sp = 15) ∧ (∃ s : State, s.sp.val = 16) :=
  ⟨⟨sample, by decide⟩, ⟨{ sample with sp := 15 }, by decide⟩, ⟨{ sample with sp := 16 }, rfl⟩⟩

theorem test_witness_RetResumesAfterTheCall :
    ∃ s t u : State, s.sp.val < 16 ∧ s.sp = 15 ∧ exec (.call 0x300) s = .next t ∧ u.sp = t.sp ∧
      u.stack[s.sp.val]? = t.stack[s.sp.val]? :=
  ⟨{ sample with sp := 15 }, _, _, by decide, rfl, rfl, rfl, rfl⟩

theorem test_witness_StackIsReachedByCallAndRetOnly :
    (Instr.jp 0x300).handler ≠ .call ∧ (Instr.jp 0x300).handler ≠ .ret ∧ ∃ s t, exec (.ret 0x0E) s = .next t :=
  ⟨by decide, by decide, { sample with sp := 16 }, _, rfl⟩

theorem test_witness_ShiftsSetVfToTheBitShiftedOut :
    (∃ (s : State) (a : Byte), a = (match s.cfg.shiftSrc with | .vx => s.reg 1 | .vy => s.reg 2) ∧ a = 7) ∧
    (∃ (s : State) (a : Byte), a = (match s.cfg.shiftSrc with | .vx => s.reg 2 | .vy => s.reg 1) ∧ a = 7) :=
  ⟨⟨sample, _, rfl, rfl⟩, ⟨configured { Config.default with shiftSrc := .vy } sample, _, rfl, rfl⟩⟩

theorem test_witness_VfOrderMattersOnlyForVf :
    (14 : Reg) ≠ 15 ∧ Instr.shl 14 15 ∈ ([.addReg 14 15, .sub 14 15, .shr 14 15, .subn 14 15, .shl 14 15] : List Instr) := by
  decide

theorem test_witness_RndMasksOneFreeDraw : (0x0F : Byte).getLsbD 4 = false ∧ (0x7F : Byte).getLsbD 7 = false := by decide

theorem test_witness_OnlyRndTakesADraw : (Instr.ldImm 1 2).handler ≠ .rnd := by decide

/-- A hit cell that is on, a hit cell that is off, a cell not hit, a sprite that hits nothing; the last row address that
reads and the first that does not. -/
theorem test_witness_DrawXorsTheTargetedCells :
    (∃ s : State, s.i.toNat + ((1 : BitVec 4).toNat - 1) ≤ 0xFFF ∧ s.i = 0xFFF ∧
      SpriteHits s 1 2 1 (cellIndex 63 31) ∧ s.fb[cellIndex 63 31] = 0xFF ∧ SpriteHits s 1 2 1 (cellIndex 0 31) ∧
      ¬ SpriteHits s 1 2 1 (cellIndex 1 31)) ∧
    (∃ s : State, s.i.toNat + ((1 : BitVec 4).toNat - 1) ≤ 0xFFF ∧ ¬ ∃ c : Fin fbSize, SpriteHits s 1 2 1 c ∧
      s.fb[c] = 0xFF) ∧
    (∃ s : State, (0 : BitVec 4) = 0 ∧ s.i = 0xFFFF) ∧
    (∃ s : State, (2 : BitVec 4) ≠ 0 ∧ 0xFFF < s.i.toNat + ((2 : BitVec 4).toNat - 1) ∧ s.i = 0xFFF) ∧
    (∃ s : State, (1 : BitVec 4) ≠ 0 ∧ 0xFFF < s.i.toNat + ((1 : BitVec 4).toNat - 1) ∧ s.i = 0x1000) := by
  refine ⟨⟨light 63 31 (withBytes 0xFFF [0xC0] { regs [(1, 63), (2, 31)] with i := 0xFFF }), by decide, rfl, ?_⟩,
    ⟨{ State.reset with i := 0x300 }, by decide, ?_⟩, ⟨{ sample with i := 0xFFFF }, rfl, rfl⟩,
    ⟨{ sample with i := 0xFFF }, by decide⟩, ⟨{ sample with i := 0x1000 }, by decide⟩⟩
  · refine ⟨⟨0, by decide, 0, by decide, by decide, by decide⟩, ?_, ⟨0, by decide, 1, by decide, by decide, by decide⟩, ?_⟩
    · simp [light]
    · rintro ⟨row, hr, col, hc, hb, he⟩
      interval_cases row
      interval_cases col <;> first | exact absurd hb (by decide) | exact absurd he (by decide)
  · rintro ⟨c, _, h⟩
    simp [State.reset, State.initial] at h

theorem test_witness_SpritePastMemoryFaultsAndDrawsNothing :
    let s : State := { about 0xFFC 0xD123 sample with i := 0xFFE }
    s.fault.faulted = false ∧ s.pc.toNat ≤ 0xFFE ∧ decode s.fetchWord = .drw 1 2 3 ∧
      ∃ row : Nat, row < (3 : BitVec 4).toNat ∧ 0xFFF < s.i.toNat + row :=
  ⟨rfl, by decide, by decide, 2, by decide, by decide⟩

theorem test_witness_DisplayIsReachedByClsAndDrwOnly :
    (Instr.ldB 1).handler ≠ .cls ∧ (Instr.ldB 1).handler ≠ .drw := by decide

/-- From an all-off buffer, with a sprite that has a set bit and with one that has none. -/
theorem test_witness_DrawingTwiceRestoresTheDisplay :
    (∃ s t u : State, faultDue (.drw 1 2 1) s = none ∧ exec (.drw 1 2 1) s = .next t ∧ u.fb = t.fb ∧ u.i = s.i ∧
      u.reg 1 = s.reg 1 ∧ u.reg 2 = s.reg 2 ∧ (∀ a : Nat, u.readByte a = s.readByte a) ∧
      (∀ c : Fin fbSize, s.fb[c] = 0x00) ∧ ∃ row < (1 : BitVec 4).toNat, s.readByte (s.i.toNat + row) ≠ 0) ∧
    (∃ s t u : State, faultDue (.drw 1 2 15) s = none ∧ exec (.drw 1 2 15) s = .next t ∧ u.fb = t.fb ∧ u.i = s.i ∧
      u.reg 1 = s.reg 1 ∧ u.reg 2 = s.reg 2 ∧ (∀ a : Nat, u.readByte a = s.readByte a) ∧
      (∀ c : Fin fbSize, s.fb[c] = 0x00) ∧ ∀ row < (15 : BitVec 4).toNat, s.readByte (s.i.toNat + row) = 0) := by
  refine ⟨⟨{ State.reset with i := 0x050 }, _, _, by decide, rfl, rfl, rfl, rfl, rfl, fun _ => rfl, fun c => ?_,
    0, by decide, by decide⟩,
    ⟨{ State.reset with i := 0x300 }, _, _, by decide, rfl, rfl, rfl, rfl, rfl, fun _ => rfl, fun c => ?_, by decide⟩⟩ <;>
    simp [State.reset, State.initial]

/-- Keys 0 and 15, pressed and not, and the first index that faults. -/
theorem test_witness_KeySkipsTestTheNamedKey :
    (let s := press 15 (regs [(1, 15)]); (s.reg 1).toNat = (15 : Fin 16).val ∧ s.key[15] = true) ∧
    (let s := regs [(1, 0)]; (s.reg 1).toNat = (0 : Fin 16).val ∧ s.key[0] = false) ∧
    0xF < ((regs [(1, 16)]).reg 1).toNat := by decide

theorem test_witness_KeyWaitTakesTheLowestPressedKey :
    (∃ s : State, s.key[(15 : Fin 16)] = true ∧ ∀ j : Fin 16, j < 15 → s.key[j] = false) ∧
    (∃ s : State, s.key[(0 : Fin 16)] = true ∧ ∀ j : Fin 16, j < 0 → s.key[j] = false) ∧
    (∃ s : State, ∀ j : Fin 16, s.key[j] = false) :=
  ⟨⟨press 15 sample, by decide⟩, ⟨press 9 (press 0 sample), by decide⟩, ⟨sample, by decide⟩⟩

theorem test_witness_WaitingCycleKeepsPcAndTicks :
    let s := about 0xFFE 0xF30A sample
    s.fault.faulted = false ∧ s.pc.toNat ≤ 0xFFE ∧ decode s.fetchWord = .ldVxK 3 ∧ (∀ j : Fin 16, s.key[j] = false) ∧
      s.cfg.timerMode = .coupled := by decide

theorem test_witness_TimerLoadsMoveOneByte :
    ([(0xF107, .ldVxDt 1), (0xF115, .ldDtVx 1), (0xF118, .ldStVx 1)] : List (Word × Instr)).all (fun p =>
      let s := about 0xFFE p.1 sample
      s.fault.faulted == false && s.pc.toNat ≤ 0xFFE && s.cfg.timerMode == .coupled && decode s.fetchWord == p.2) =
      true := by decide

theorem test_witness_CoupledTimersGoDownOncePerCycle :
    (∃ s t : State, s.fault.faulted = false ∧ s.pc.toNat ≤ 0xFFE ∧ s.cfg.timerMode = .coupled ∧ step s = .next t ∧
      t.fault.faulted = false ∧ (decode s.fetchWord).handler ≠ .ldDtVx ∧ (decode s.fetchWord).handler ≠ .ldStVx) ∧
    (∃ s t : State, s.fault.faulted = false ∧ s.pc.toNat ≤ 0xFFE ∧ s.cfg.timerMode = .coupled ∧ step s = .next t ∧
      t.fault.faulted = false ∧ decode s.fetchWord = .ldDtVx 1) ∧
    (∃ s t : State, s.fault.faulted = false ∧ s.pc.toNat ≤ 0xFFE ∧ s.cfg.timerMode = .coupled ∧ step s = .next t ∧
      t.fault.faulted = false ∧ decode s.fetchWord = .ldStVx 1) :=
  ⟨⟨sample, _, rfl, by decide, rfl, rfl, rfl, by decide, by decide⟩,
    ⟨about 0x200 0xF115 sample, _, rfl, by decide, rfl, rfl, rfl, by decide⟩,
    ⟨about 0x200 0xF118 sample, _, rfl, by decide, rfl, rfl, rfl, by decide⟩⟩

theorem test_witness_BcdStoresThreeDigits :
    (∃ s : State, Memory.wf s.cfg.font s.mem ∧ s.i.toNat + 2 ≤ 0xFFF ∧ s.i = 0xFFD) ∧
    (∃ s : State, 0xFFF < s.i.toNat + 2 ∧ s.i = 0xFFE) :=
  ⟨⟨{ sample with i := 0xFFD }, by decide⟩, ⟨{ sample with i := 0xFFE }, by decide⟩⟩

theorem test_witness_BlockStoreWritesV0ToVx :
    (∃ s : State, Memory.wf s.cfg.font s.mem ∧ s.i.toNat + (15 : Reg).val ≤ 0xFFF ∧ s.i = 0xFF0) ∧
    (∃ s : State, 0xFFF < s.i.toNat + (15 : Reg).val ∧ s.i = 0xFF1) :=
  ⟨⟨{ sample with i := 0xFF0 }, by decide⟩, ⟨{ sample with i := 0xFF1 }, by decide⟩⟩

theorem test_witness_BlockLoadReadsV0ToVx :
    (∃ s : State, s.i.toNat + (0 : Reg).val ≤ 0xFFF ∧ s.i = 0xFFF) ∧
    (∃ s : State, 0xFFF < s.i.toNat + (0 : Reg).val ∧ s.i = 0x1000) :=
  ⟨⟨{ sample with i := 0xFFF }, by decide⟩, ⟨{ sample with i := 0x1000 }, by decide⟩⟩

theorem test_witness_BlockPastMemoryIsDiscarded :
    ([(0xFF55, .ldStore 15), (0xFF65, .ldLoad 15)] : List (Word × Instr)).all (fun p =>
      let s : State := { about 0xFFC p.1 sample with i := 0xFF1 }
      s.fault.faulted == false && s.pc.toNat ≤ 0xFFE && 0xFFF < s.i.toNat + (15 : Reg).val &&
        decode s.fetchWord == p.2) = true := by decide

end Sys2Proof.Tests
end

section
/-! PROOFS. The configuration is fixed (10_state.md R47): one rule per operation that can end a cycle or a host move,
then the statement over handlers, steps and host moves. -/

namespace Sys2Proof.Machine

@[simp] theorem State.tick_cfg (s : State) : s.tick.cfg = s.cfg := by rw [s.tick_eq]

@[simp] theorem State.copyIn_cfg (s : State) (a : Nat) (bs : List Byte) : (s.copyIn a bs).cfg = s.cfg := by
  induction bs generalizing s a with
  | nil => rfl
  | cons b bs ih => exact ih (s.writeByte a b) (a + 1)

@[simp] theorem State.load_cfg (s : State) (source : Option (List Byte)) : (s.load source).2.cfg = s.cfg := by
  cases source with
  | none => rfl
  | some bytes =>
    unfold State.load
    dsimp only
    split
    · rfl
    · exact s.copyIn_cfg 0x200 bytes

/-- A handler keeps the configuration, whether it raises or completes. -/
theorem exec_keeps_cfg {i : Instr} {s t : State} (h : exec i s = .next t) : t.cfg = s.cfg := by
  rcases exec_next_cases i s t h with ⟨r, rfl⟩ | hcompleted
  · rfl
  · rw [hcompleted]

theorem step_keeps_cfg {s t : State} (h : step s = .next t) : t.cfg = s.cfg := by
  rcases step_next_cases s t h with ⟨-, rfl⟩ | ⟨-, -, rfl⟩ | ⟨-, -, u, hexec, rfl⟩
  · rfl
  · rfl
  · have hu : u.cfg = s.cfg := (exec_keeps_cfg hexec).trans s.advancePc_cfg
    split
    · exact hu
    · exact u.tick_cfg.trans hu

theorem hostMove_keeps_cfg {s t : State} (h : HostMove s t) : t.cfg = s.cfg := by
  cases h with
  | init => rfl
  | load source => exact s.load_cfg source
  | keys => rfl

/-- Settles O6, by the inversion lemmas of a handler and of a step and by cases on the host move. -/
theorem configurationIsFixed : Obligations.ConfigurationIsFixed :=
  ⟨fun _ _ => step_keeps_cfg, fun _ _ _ => exec_keeps_cfg, fun _ _ => hostMove_keeps_cfg⟩

end Sys2Proof.Machine
end

section
/-! PROOFS. Reset (10_state.md R46, 70_reset_and_hazards.md R260): memory that lists nothing reads as the reset contents,
and every other piece of state is read off `State.initial`. -/

namespace Sys2Proof.Machine

theorem Memory.unlisted_font (font : Font) (d : Fin 80) : Memory.unlisted font (0x050 + d.val) = font[d] := by
  unfold Memory.unlisted
  rw [dif_pos (by omega)]
  simp only [Nat.add_sub_cancel_left, Fin.getElem_fin]

theorem Memory.unlisted_outside_font (font : Font) {a : Nat} (h : a < 0x050 ∨ 0x09F < a) :
    Memory.unlisted font a = 0x00 := dif_neg (by omega)

theorem State.initial_readByte (cfg : Config) (draws strobes a : Nat) :
    (State.initial cfg draws strobes).readByte a = Memory.unlisted cfg.font a := rfl

/-- The reset state has the table of R46, whatever the free inputs taken before. -/
theorem State.initial_afterInitialize (cfg : Config) (draws strobes : Nat) :
    AfterInitialize cfg (State.initial cfg draws strobes) where
  font d := by rw [State.initial_readByte, Memory.unlisted_font]
  zeroed a _ h := by rw [State.initial_readByte, Memory.unlisted_outside_font _ h]
  regs _ := Vector.getElem_replicate _
  index := rfl
  pc := rfl
  stack _ := Vector.getElem_replicate _
  sp := rfl
  dt := rfl
  st := rfl
  display _ := Vector.getElem_replicate _
  keys _ := Vector.getElem_replicate _
  fault := rfl
  config := rfl

/-- Settles O1: `initialize` and reset both give a `State.initial`, which has the table of R46. -/
theorem initializeLeavesResetValues : Obligations.InitializeLeavesResetValues :=
  ⟨fun s => State.initial_afterInitialize s.cfg s.draws s.strobes, State.initial_afterInitialize Config.default 0 0⟩

end Sys2Proof.Machine
end

section
/-! PROOFS. The cycle (40_engine.md R100-R102): the fetched word by its two bytes, and the step of a core whose fetch is
inside memory as one equation, whatever the handler answers. -/

namespace Sys2Proof.Machine

/-- Big-endian fetch (R101). -/
theorem State.fetchWord_eq (s : State) :
    s.fetchWord = (s.readByte s.pc.toNat).setWidth 16 <<< 8 ||| (s.readByte (s.pc.toNat + 1)).setWidth 16 :=
  wordOfBytes_eq _ _

/-- The executing branch of the cycle; unlike `step_of_exec` it asks nothing of the handler's outcome. -/
theorem step_eq_afterHandler (s : State) (hf : s.fault.faulted = false) (hp : s.pc.toNat ≤ 0xFFE) :
    step s = afterHandler (exec (decode s.fetchWord) s.advancePc) := by
  have hok : s.fetchOk = true := decide_eq_true hp
  unfold step cycle
  rw [if_neg (by simp [hf]), if_pos hok]

/-- Settles O17, one branch of the cycle at a time: faulted core, fetch past memory, decoded handler. -/
theorem stepRunsTheDecodedInstruction : Obligations.StepRunsTheDecodedInstruction := by
  intro s
  refine ⟨step_of_faulted s, step_of_fetch_fault s, ?_⟩
  rintro hf hp i rfl
  rw [← s.fetchWord_eq]
  exact step_eq_afterHandler s hf hp

end Sys2Proof.Machine
end

section
/-! PROOFS. The flat table of R80 against the two-level dispatch of R75-R79: the table cut into the rows of one family,
each family's rows as its secondary table, and the disjointness of the rows. -/

namespace Sys2Proof

/-! ## The handler a list of rows selects -/

/-- The handler of the first of `rows` that `op` matches, the no-op row standing last. -/
def firstMatch (rows : List OpcodeRow) (op : Word) : Option Handler :=
  ((rows ++ [nopRow]).find? fun r => r.matches op).map OpcodeRow.handler

theorem firstMatch_nil (op : Word) : firstMatch [] op = some .nop := by
  simp [firstMatch, nopRow, OpcodeRow.matches]

theorem firstMatch_cons (r : OpcodeRow) (rows : List OpcodeRow) (op : Word) :
    firstMatch (r :: rows) op = if r.matches op = true then some r.handler else firstMatch rows op := by
  simp only [firstMatch, List.cons_append, List.find?_cons]
  cases r.matches op <;> rfl

/-! ## The rows of one family -/

/-- The rows of R80 whose pattern is in family `f`. -/
def rowsOfFamily (f : BitVec 4) : List OpcodeRow := opcodeRows.filter fun r => Op.family r.pat = f

theorem opcodeRows_fix_family : ∀ r ∈ opcodeRows, r.mask.extractLsb' 12 4 = 0xF := by decide

/-- Rows of another family than the word's match nothing, so they can be dropped. -/
theorem firstMatch_filter_family (op : Word) (rows : List OpcodeRow)
    (hfix : ∀ r ∈ rows, r.mask.extractLsb' 12 4 = 0xF) :
    firstMatch (rows.filter fun r => Op.family r.pat = Op.family op) op = firstMatch rows op := by
  induction rows with
  | nil => rfl
  | cons r rows ih =>
    obtain ⟨hr, hrows⟩ := List.forall_mem_cons.mp hfix
    by_cases hfam : Op.family r.pat = Op.family op
    · rw [List.filter_cons_of_pos (by simpa using hfam), firstMatch_cons, firstMatch_cons, ih hrows]
    · have hmiss : ¬ r.matches op = true := fun hm =>
        hfam (family_of_mask op r.mask r.pat (beq_iff_eq.mp hm) hr).symm
      rw [List.filter_cons_of_neg (by simpa using hfam), firstMatch_cons, if_neg hmiss, ih hrows]

/-- A row whose mask fixes the family alone. -/
def familyRow (f : BitVec 4) (h : Handler) : OpcodeRow := ⟨h, packNibbles f 0 0 0, 0xF000⟩

/-- A row whose mask fixes the family and the trailing nibble. -/
def nibbleRow (f : BitVec 4) (h : Handler) (c : BitVec 4) : OpcodeRow := ⟨h, packNibbles f 0 0 c, 0xF00F⟩

/-- A row whose mask fixes the family and the trailing byte. -/
def byteRow (f : BitVec 4) (h : Handler) (k : Byte) : OpcodeRow := ⟨h, packByte f 0 k, 0xF0FF⟩

section
variable {op : Word} {f : BitVec 4} (hf : Op.family op = f)
include hf

theorem matches_familyRow (h : Handler) : (familyRow f h).matches op = true :=
  beq_iff_eq.mpr ((and_F000_iff op f).mpr hf)

theorem matches_nibbleRow (h : Handler) (c : BitVec 4) : (nibbleRow f h c).matches op = true ↔ Op.n op = c :=
  beq_iff_eq.trans ((and_F00F_iff op f c).trans (and_iff_right hf))

theorem matches_byteRow (h : Handler) (k : Byte) : (byteRow f h k).matches op = true ↔ Op.kk op = k :=
  beq_iff_eq.trans ((and_F0FF_iff op f k).trans (and_iff_right hf))

theorem firstMatch_familyRow (h : Handler) (hrows : rowsOfFamily f = [familyRow f h]) :
    firstMatch (rowsOfFamily f) op = some h := by
  rw [hrows, firstMatch_cons, if_pos (matches_familyRow hf h)]
  rfl

end

/-! ## The secondary tables (R76-R79)

Once a family's rows are named, the search through them and its secondary decoder are the same chain of tests. -/

section
variable {op : Word}

theorem firstMatch_family0 (hf : Op.family op = 0x0) :
    firstMatch (rowsOfFamily 0x0) op = some (decode0 op).handler := by
  have hrows : rowsOfFamily 0x0 = [nibbleRow 0x0 .cls 0x0, nibbleRow 0x0 .ret 0xE] := by decide
  simp only [hrows, firstMatch_cons, firstMatch_nil, matches_nibbleRow hf, decode0, apply_ite Instr.handler,
    apply_ite some]
  rfl

theorem firstMatch_family8 (hf : Op.family op = 0x8) :
    firstMatch (rowsOfFamily 0x8) op = some (decode8 op).handler := by
  have hrows : rowsOfFamily 0x8 =
      [nibbleRow 0x8 .ldReg 0x0, nibbleRow 0x8 .or 0x1, nibbleRow 0x8 .and 0x2, nibbleRow 0x8 .xor 0x3,
       nibbleRow 0x8 .addReg 0x4, nibbleRow 0x8 .sub 0x5, nibbleRow 0x8 .shr 0x6, nibbleRow 0x8 .subn 0x7,
       nibbleRow 0x8 .shl 0xE] := by decide
  simp only [hrows, firstMatch_cons, firstMatch_nil, matches_nibbleRow hf, decode8, apply_ite Instr.handler,
    apply_ite some]
  rfl

theorem firstMatch_familyE (hf : Op.family op = 0xE) :
    firstMatch (rowsOfFamily 0xE) op = some (decodeE op).handler := by
  have hrows : rowsOfFamily 0xE = [nibbleRow 0xE .skp 0xE, nibbleRow 0xE .sknp 0x1] := by decide
  simp only [hrows, firstMatch_cons, firstMatch_nil, matches_nibbleRow hf, decodeE, apply_ite Instr.handler,
    apply_ite some]
  rfl

theorem firstMatch_familyF (hf : Op.family op = 0xF) :
    firstMatch (rowsOfFamily 0xF) op = some (decodeF op).handler := by
  have hrows : rowsOfFamily 0xF =
      [byteRow 0xF .ldVxDt 0x07, byteRow 0xF .ldVxK 0x0A, byteRow 0xF .ldDtVx 0x15, byteRow 0xF .ldStVx 0x18,
       byteRow 0xF .addI 0x1E, byteRow 0xF .ldF 0x29, byteRow 0xF .ldB 0x33, byteRow 0xF .ldStore 0x55,
       byteRow 0xF .ldLoad 0x65] := by decide
  simp only [hrows, firstMatch_cons, firstMatch_nil, matches_byteRow hf, decodeF, apply_ite Instr.handler,
    apply_ite some]
  rfl

end

/-! ## The whole table -/

/-- The primary table (R75): the rows of a word's family select the handler it decodes to. -/
theorem firstMatch_rowsOfFamily (op : Word) :
    firstMatch (rowsOfFamily (Op.family op)) op = some (decode op).handler := by
  generalize hf : Op.family op = f
  unfold decode
  rw [hf]
  match f with
  | 0x0 => exact firstMatch_family0 hf
  | 0x1 => exact firstMatch_familyRow hf .jp (by decide)
  | 0x2 => exact firstMatch_familyRow hf .call (by decide)
  | 0x3 => exact firstMatch_familyRow hf .seImm (by decide)
  | 0x4 => exact firstMatch_familyRow hf .sneImm (by decide)
  | 0x5 => exact firstMatch_familyRow hf .seReg (by decide)
  | 0x6 => exact firstMatch_familyRow hf .ldImm (by decide)
  | 0x7 => exact firstMatch_familyRow hf .addImm (by decide)
  | 0x8 => exact firstMatch_family8 hf
  | 0x9 => exact firstMatch_familyRow hf .sneReg (by decide)
  | 0xA => exact firstMatch_familyRow hf .ldI (by decide)
  | 0xB => exact firstMatch_familyRow hf .jpV0 (by decide)
  | 0xC => exact firstMatch_familyRow hf .rnd (by decide)
  | 0xD => exact firstMatch_familyRow hf .drw (by decide)
  | 0xE => exact firstMatch_familyE hf
  | 0xF => exact firstMatch_familyF hf
  | .ofFin ⟨k + 16, hk⟩ => exact absurd hk (by omega)

theorem firstMatch_opcodeRows (op : Word) : firstMatch opcodeRows op = some (decode op).handler := by
  rw [← firstMatch_filter_family op opcodeRows opcodeRows_fix_family]
  exact firstMatch_rowsOfFamily op

/-! ## Disjointness -/

/-- Two rows whose patterns differ on a bit that both masks fix have no word in common. -/
theorem OpcodeRow.not_matches_both {r q : OpcodeRow} (h : r.pat &&& q.mask ≠ q.pat &&& r.mask) (op : Word) :
    ¬ (r.matches op = true ∧ q.matches op = true) := by
  rintro ⟨hr, hq⟩
  have hr : op &&& r.mask = r.pat := beq_iff_eq.mp hr
  have hq : op &&& q.mask = q.pat := beq_iff_eq.mp hq
  exact h (by rw [← hr, ← hq, BitVec.and_assoc, BitVec.and_comm r.mask, BitVec.and_assoc])

theorem opcodeRows_pairwise_differ :
    opcodeRows.Pairwise fun r q => r.pat &&& q.mask ≠ q.pat &&& r.mask := by decide

/-- Settles O13: the flat table is searched family by family, as `decode` dispatches, and any two rows differ on a bit
that both fix. -/
theorem decodingFollowsTheTable : Obligations.DecodingFollowsTheTable :=
  ⟨firstMatch_opcodeRows, opcodeRows_pairwise_differ.imp OpcodeRow.not_matches_both⟩

end Sys2Proof
end

section
/-! PROOFS. The tick of a completed cycle (40_engine.md R105): which timers it moves and what it leaves. -/

namespace Sys2Proof.Machine

/-- The tick's effect on the two timers, as R105 words it in both timer modes. -/
theorem State.tick_timers (s : State) :
    if s.cfg.timerMode = .coupled ∨ Config.timerStrobe s.strobes = true
      then s.tick.dt.toNat = s.dt.toNat - 1 ∧ s.tick.st.toNat = s.st.toNat - 1
      else s.tick.dt = s.dt ∧ s.tick.st = s.st := by
  split
  case isTrue hdue =>
    obtain ⟨hdt, hst⟩ := s.tick_due (s.tickDue_iff.mpr hdue)
    exact ⟨by rw [hdt, decTimer_toNat], by rw [hst, decTimer_toNat]⟩
  case isFalse hnot => exact s.tick_notDue (Bool.eq_false_iff.mpr (mt s.tickDue_iff.mp hnot))

theorem State.tick_unchanged (s : State) : UnchangedBut [.delay, .sound, .strobes] s s.tick := by
  rw [s.tick_eq]
  intro p hp
  cases p
  case delay | sound | strobes => simp at hp
  case stack => exact ⟨rfl, rfl⟩
  case memory | regs => exact fun _ => rfl
  all_goals rfl

/-- Settles O19: the step ends in the handler's state, ticked unless it is faulted; the handler keeps the timer mode. -/
theorem tickFollowsEveryCompletedHandler : Obligations.TickFollowsEveryCompletedHandler := by
  intro s u hf hp hexec
  have hstep := step_of_exec s u hf hp hexec
  refine ⟨fun hu => by rw [hstep, if_pos hu], fun hu => ⟨u.tick, ?_, ?_, u.tick_unchanged⟩⟩
  · rw [hstep, if_neg (Bool.eq_false_iff.mp hu)]
  · have hcfg : u.cfg = s.cfg := exec_keeps_cfg (s := s.advancePc) hexec
    rw [← hcfg]
    exact u.tick_timers

end Sys2Proof.Machine
end

section
/-! PROOFS. A faulted core (40_engine.md R109): of the host's moves, load needs a fresh machine and a key update keeps
the fault status, so initialize is the only way out. -/

namespace Sys2Proof.Machine

theorem State.init_not_faulted (s : State) : s.init.fault.faulted = false := rfl

theorem hostMove_clearing_fault_is_init {s t : State} (hmove : HostMove s t) (hs : s.fault.faulted = true)
    (ht : t.fault.faulted = false) : t = s.init := by
  cases hmove with
  | init => rfl
  | load source hfresh =>
    have hclear : s.fault.faulted = false := by rw [hfresh, State.init_not_faulted]
    exact absurd hclear (by simp [hs])
  | keys key => exact absurd ht (by simp [hs])

/-- Settles O20: one lemma per clause, for the cycle, the host's moves and initialize. -/
theorem faultedCoreStaysHaltedUntilInitialize : Obligations.FaultedCoreStaysHaltedUntilInitialize :=
  ⟨step_of_faulted, fun _ _ => hostMove_clearing_fault_is_init, State.init_not_faulted⟩

end Sys2Proof.Machine
end

section
/-! PROOFS. The no-op (40_engine.md R108): a word outside the other rows of R80 selects the no-op handler, so its cycle
is the fetch, the PC advance and the tick. -/

namespace Sys2Proof

theorem firstMatch_of_no_match {rows : List OpcodeRow} {op : Word} (h : ∀ r ∈ rows, op &&& r.mask ≠ r.pat) :
    firstMatch rows op = some .nop := by
  induction rows with
  | nil => exact firstMatch_nil op
  | cons r rows ih =>
    obtain ⟨hr, hrows⟩ := List.forall_mem_cons.mp h
    have hmiss : ¬ r.matches op = true := fun hm => hr (beq_iff_eq.mp hm)
    rw [firstMatch_cons, if_neg hmiss, ih hrows]

theorem Instr.eq_nop_of_handler {i : Instr} (h : i.handler = .nop) : ∃ w, i = .nop w := by
  cases i with
  | nop w => exact ⟨w, rfl⟩
  | _ => cases h

theorem decode_of_no_match {op : Word} (h : ∀ r ∈ opcodeRows, op &&& r.mask ≠ r.pat) : ∃ w, decode op = .nop w :=
  Instr.eq_nop_of_handler (Option.some.inj ((firstMatch_opcodeRows op).symm.trans (firstMatch_of_no_match h)))

namespace Machine

theorem exec_nop (w : Word) (s : State) : exec (.nop w) s = .next s := rfl

theorem exec_of_no_match {op : Word} (s : State) (h : ∀ r ∈ opcodeRows, op &&& r.mask ≠ r.pat) :
    exec (decode op) s = .next s := by
  obtain ⟨w, hw⟩ := decode_of_no_match h
  rw [hw, exec_nop]

theorem step_of_no_match {s : State} (hf : s.fault.faulted = false) (hp : s.pc.toNat ≤ 0xFFE)
    (h : ∀ r ∈ opcodeRows, s.fetchWord &&& r.mask ≠ r.pat) : step s = .next s.advancePc.tick := by
  have hclear : ¬ s.advancePc.fault.faulted = true := by simp [hf]
  rw [step_of_exec s _ hf hp (exec_of_no_match s.advancePc h), if_neg hclear]

/-- Settles O24: the handler by itself, what any word outside the other rows decodes to, and the cycle that fetches one. -/
theorem noOpDoesNothing : Obligations.NoOpDoesNothing :=
  ⟨exec_nop, fun _ => exec_of_no_match, fun _ => step_of_no_match⟩

end Machine
end Sys2Proof
end

section
/-! PROOFS. The encoding lines of the instruction rules: a mask and match of R80 is a condition on the fields of the word,
and the dispatch of R75-R79 is read off those fields. -/

namespace Sys2Proof.Machine

theorem encodedAs_of_family {f : BitVec 4} {i : Word → Instr} (h : ∀ op, Op.family op = f → decode op = i op) :
    EncodedAs 0xF000 (packNibbles f 0 0 0) i := fun op hop => h op ((and_F000_iff op f).mp hop)

theorem encodedAs_of_family_nibble {f c : BitVec 4} {i : Word → Instr}
    (h : ∀ op, Op.family op = f → Op.n op = c → decode op = i op) :
    EncodedAs 0xF00F (packNibbles f 0 0 c) i := fun op hop =>
  have ⟨hf, hn⟩ := (and_F00F_iff op f c).mp hop
  h op hf hn

theorem ret_encoded : EncodedAs 0xF00F 0x000E (fun op => .ret (Op.ign8 op)) :=
  encodedAs_of_family_nibble (f := 0x0) (c := 0xE) fun op hf hn => by simp [decode, decode0, hf, hn]

theorem jp_encoded : EncodedAs 0xF000 0x1000 (fun op => .jp (Op.nnn op)) :=
  encodedAs_of_family (f := 0x1) fun op hf => by simp [decode, hf]

theorem call_encoded : EncodedAs 0xF000 0x2000 (fun op => .call (Op.nnn op)) :=
  encodedAs_of_family (f := 0x2) fun op hf => by simp [decode, hf]

theorem seImm_encoded : EncodedAs 0xF000 0x3000 (fun op => .seImm (Op.x op) (Op.kk op)) :=
  encodedAs_of_family (f := 0x3) fun op hf => by simp [decode, hf]

theorem sneImm_encoded : EncodedAs 0xF000 0x4000 (fun op => .sneImm (Op.x op) (Op.kk op)) :=
  encodedAs_of_family (f := 0x4) fun op hf => by simp [decode, hf]

theorem seReg_encoded : EncodedAs 0xF000 0x5000 (fun op => .seReg (Op.x op) (Op.y op) (Op.n op)) :=
  encodedAs_of_family (f := 0x5) fun op hf => by simp [decode, hf]

theorem sneReg_encoded : EncodedAs 0xF000 0x9000 (fun op => .sneReg (Op.x op) (Op.y op) (Op.n op)) :=
  encodedAs_of_family (f := 0x9) fun op hf => by simp [decode, hf]

theorem jpV0_encoded : EncodedAs 0xF000 0xB000 (fun op => .jpV0 (Op.nnn op)) :=
  encodedAs_of_family (f := 0xB) fun op hf => by simp [decode, hf]

end Sys2Proof.Machine
end

section
/-! PROOFS. Control flow (41_flow.md R121-R130): the handlers as equations over the shared operations on PC and stack,
each with its frame. -/

namespace Sys2Proof.Machine

section
variable (s : State)

/-! ## Frames -/

theorem State.setPc_unchanged (a : Word) : UnchangedBut [.pc] s (s.setPc a) := by
  intro p hp
  cases p
  case pc => simp at hp
  case stack => exact ⟨rfl, rfl⟩
  case memory | regs => exact fun _ => rfl
  all_goals rfl

theorem State.pc_stack_update_unchanged (a : Word) (k : Vector Word 16) (p : Fin 17) :
    UnchangedBut [.pc, .stack] s { s with pc := a, stack := k, sp := p } := by
  intro q hq
  cases q
  case pc | stack => simp at hq
  case memory | regs => exact fun _ => rfl
  all_goals rfl

theorem State.skipIf_unchanged (c : Bool) : UnchangedBut [.pc] s (s.skipIf c) :=
  s.skipIf_pc_ite c ▸ s.setPc_unchanged _

/-! ## Jumps (R122, R124) -/

theorem exec_jp (nnn : Addr12) : exec (.jp nnn) s = .next (s.setPc (addrWord nnn)) := rfl

theorem exec_jpV0 (nnn : Addr12) : exec (.jpV0 nnn) s = .next (s.setPc (s.v0Indexed nnn)) := rfl

/-! ## Skips (R127-R130) -/

theorem exec_seImm (x : Reg) (kk : Byte) : exec (.seImm x kk) s = .next (s.skipIf (s.reg x == kk)) := rfl

theorem exec_sneImm (x : Reg) (kk : Byte) : exec (.sneImm x kk) s = .next (s.skipIf (s.reg x != kk)) := rfl

theorem exec_seReg (x y : Reg) (g : BitVec 4) :
    exec (.seReg x y g) s = .next (s.skipIf (s.reg x == s.reg y)) := rfl

theorem exec_sneReg (x y : Reg) (g : BitVec 4) :
    exec (.sneReg x y g) s = .next (s.skipIf (s.reg x != s.reg y)) := rfl

theorem State.skipIf_beq_pc (a b : Byte) : (s.skipIf (a == b)).pc = if a = b then s.pc + 2 else s.pc := by
  simp only [State.skipIf_pc_ite, beq_iff_eq]

theorem State.skipIf_bne_pc (a b : Byte) : (s.skipIf (a != b)).pc = if a = b then s.pc else s.pc + 2 := by
  simp only [State.skipIf_pc_ite, bne_iff_ne, ite_not]

/-! ## The stack (R121, R123) -/

theorem exec_ret (g : Byte) : exec (.ret g) s = endHandler (.ret g) s s.popPc := rfl

theorem exec_call (nnn : Addr12) :
    exec (.call nnn) s = endHandler (.call nnn) s (s.pushPc.map fun t => t.setPc (addrWord nnn)) := rfl

theorem exec_ret_of_pos (g : Byte) (h : 0 < s.sp.val) :
    exec (.ret g) s =
      .next { s with pc := s.stack[s.sp.val - 1]'(by omega), sp := ⟨s.sp.val - 1, by omega⟩ } := by
  rw [exec_ret, s.popPc_ok h, endHandler_ok]

theorem exec_call_of_lt (nnn : Addr12) (h : s.sp.val < 16) :
    exec (.call nnn) s =
      .next { s with
        pc := addrWord nnn, stack := s.stack.set s.sp.val s.pc, sp := ⟨s.sp.val + 1, by omega⟩ } := by
  rw [exec_call, s.pushPc_ok h]
  rfl

theorem ret_faults (g : Byte) (h : s.sp.val = 0) : FaultsAs (.ret g) s .stackUnderflow 0 := by
  rw [FaultsAs, exec_ret, s.popPc_error h, endHandler_error]

theorem call_faults (nnn : Addr12) (h : s.sp.val = 16) : FaultsAs (.call nnn) s .stackOverflow 16 := by
  rw [FaultsAs, exec_call, s.pushPc_error h]
  rfl

end

/-! ## The obligations -/

/-- Settles O26, by the two outcomes of a pop. -/
theorem retPopsThePc : Obligations.RetPopsThePc := by
  refine ⟨ret_encoded, fun g s hsp => ?_, fun g s hsp => ret_faults s g (congrArg Fin.val hsp)⟩
  have hpos : 0 < s.sp.val := Fin.pos_iff_ne_zero.mpr hsp
  exact ⟨_, exec_ret_of_pos s g hpos, rfl, (Vector.getElem?_eq_getElem _).symm, rfl,
    s.pc_stack_update_unchanged _ _ _⟩

/-- Settles O27: both jumps are a write of the PC, and neither target wraps. -/
theorem jumpsSetThePc : Obligations.JumpsSetThePc :=
  ⟨jp_encoded, jpV0_encoded, fun nnn s =>
    ⟨⟨_, exec_jp s nnn, addrWord_toNat nnn, s.setPc_unchanged _⟩,
     ⟨_, exec_jpV0 s nnn, s.v0Indexed_toNat nnn, s.setPc_unchanged _⟩⟩⟩

/-- Settles O28, by the two outcomes of a push. -/
theorem callPushesThePc : Obligations.CallPushesThePc := by
  refine ⟨call_encoded, fun nnn s hsp => ?_, fun nnn s => call_faults s nnn⟩
  refine ⟨_, exec_call_of_lt s nnn hsp, rfl, addrWord_toNat nnn, fun j => ?_, s.pc_stack_update_unchanged _ _ _⟩
  simp only [Fin.getElem_fin, Vector.getElem_set, eq_comm]

/-- Settles O30: the four skips are one conditional advance of the PC, under `==` or `!=`. -/
theorem compareSkipsAddTwo : Obligations.CompareSkipsAddTwo :=
  ⟨seImm_encoded, sneImm_encoded, seReg_encoded, sneReg_encoded, fun x y kk g s =>
    ⟨⟨_, exec_seImm s x kk, s.skipIf_beq_pc _ _, s.skipIf_unchanged _⟩,
     ⟨_, exec_sneImm s x kk, s.skipIf_bne_pc _ _, s.skipIf_unchanged _⟩,
     ⟨_, exec_seReg s x y g, s.skipIf_beq_pc _ _, s.skipIf_unchanged _⟩,
     ⟨_, exec_sneReg s x y g, s.skipIf_bne_pc _ _, s.skipIf_unchanged _⟩⟩⟩

end Sys2Proof.Machine
end

section
/-! PROOFS. Who reaches the stack (41_flow.md R134): replacing the stack and SP commutes with every operation on the
state but push and pop, hence with every handler but CALL and RET. -/

namespace Sys2Proof.Machine

/-- This state with another stack and SP. -/
def State.withStack (s : State) (k : Vector Word 16) (p : Fin 17) : State := { s with stack := k, sp := p }

section
variable (s : State) (k : Vector Word 16) (p : Fin 17)

@[simp] theorem State.withStack_cfg : (s.withStack k p).cfg = s.cfg := rfl
@[simp] theorem State.withStack_i : (s.withStack k p).i = s.i := rfl
@[simp] theorem State.withStack_key : (s.withStack k p).key = s.key := rfl
@[simp] theorem State.withStack_regsUpTo (x : Reg) : (s.withStack k p).regsUpTo x = s.regsUpTo x := rfl

/-! ## The operations -/

@[simp] theorem State.skipIf_withStack (c : Bool) : (s.withStack k p).skipIf c = (s.skipIf c).withStack k p := by
  cases c <;> rfl

@[simp] theorem State.setRegAndFlag_withStack (x : Reg) (res flag : Byte) :
    (s.withStack k p).setRegAndFlag x res flag = (s.setRegAndFlag x res flag).withStack k p := by
  unfold State.setRegAndFlag
  rw [State.withStack_cfg]
  cases s.cfg.vfOrder <;> rfl

@[simp] theorem State.blockAdvanceI_withStack (x : Reg) :
    (s.withStack k p).blockAdvanceI x = (s.blockAdvanceI x).withStack k p := by
  unfold State.blockAdvanceI
  rw [State.withStack_cfg]
  cases s.cfg.blockIncI <;> rfl

@[simp] theorem State.setRegs_withStack (n : Nat) (bs : List Byte) :
    (s.withStack k p).setRegs n bs = (s.setRegs n bs).withStack k p := by
  induction bs generalizing s n with
  | nil => rfl
  | cons b bs ih => exact ih { s with v := s.v.setIfInBounds n b } (n + 1)

@[simp] theorem State.memReads_withStack (a n : Nat) : (s.withStack k p).memReads a n = s.memReads a n :=
  State.memReads_congr s (s.withStack k p) a n rfl rfl

/-- Checked writes give back every field but memory, so the other stack stays. -/
@[simp] theorem State.memWrites_withStack (a : Nat) (bs : List Byte) :
    (s.withStack k p).memWrites a bs = (s.memWrites a bs).map fun t => t.withStack k p := by
  rw [State.memWrites_congr s (s.withStack k p) a bs rfl rfl]
  cases hw : s.memWrites a bs with
  | error r => rfl
  | ok t =>
    have ht : t = { s with mem := t.mem } := s.memWrites_eq t a bs hw
    simp only [Except.map]
    rw [ht]
    rfl

/-! ## The handlers -/

theorem map_withStack {α : Type} (e : Except Raise α) {f g : α → State} (h : ∀ a, f a = (g a).withStack k p) :
    e.map f = (e.map g).map fun t => t.withStack k p := by
  cases e with
  | error r => rfl
  | ok a => exact congrArg Except.ok (h a)

/-- Fault entry keeps the stack, so a handler ends with the other stack whether it completes or raises. -/
theorem endHandler_withStack (i : Instr) {e e' : Except Raise State} (h : e' = e.map fun t => t.withStack k p) :
    endHandler i (s.withStack k p) e' = mapNext (fun t => t.withStack k p) (endHandler i s e) := by
  subst h
  cases e <;> rfl

theorem execDrw_withStack (x y : Reg) (n : BitVec 4) :
    execDrw x y n (s.withStack k p) = mapNext (fun t => t.withStack k p) (execDrw x y n s) := by
  refine endHandler_withStack s k p _ ?_
  rw [State.memReads_withStack]
  exact map_withStack k p _ fun rows => rfl

theorem execLdStore_withStack (x : Reg) :
    execLdStore x (s.withStack k p) = mapNext (fun t => t.withStack k p) (execLdStore x s) := by
  refine endHandler_withStack s k p _ ?_
  rw [State.memWrites_withStack, State.withStack_i, State.withStack_regsUpTo]
  cases s.memWrites s.i.toNat (s.regsUpTo x) with
  | error r => rfl
  | ok t => exact congrArg Except.ok (t.blockAdvanceI_withStack k p x)

theorem execLdLoad_withStack (x : Reg) :
    execLdLoad x (s.withStack k p) = mapNext (fun t => t.withStack k p) (execLdLoad x s) := by
  refine endHandler_withStack s k p _ ?_
  rw [State.memReads_withStack]
  exact map_withStack k p _ fun bs => by rw [State.setRegs_withStack, State.blockAdvanceI_withStack]

theorem execLdVxK_withStack (x : Reg) :
    execLdVxK x (s.withStack k p) = mapNext (fun t => t.withStack k p) (execLdVxK x s) := by
  unfold execLdVxK
  rw [State.withStack_key]
  cases scanKeys s.key 0 16 <;> rfl

/-- Every other handler is a field update of the state that reads neither the stack nor SP. -/
theorem exec_withStack (i : Instr) (hcall : i.handler ≠ .call) (hret : i.handler ≠ .ret) :
    exec i (s.withStack k p) = mapNext (fun t => t.withStack k p) (exec i s) := by
  cases i
  case call => exact absurd rfl hcall
  case ret => exact absurd rfl hret
  case seImm | sneImm | seReg | sneReg => exact congrArg Host.Outcome.next (s.skipIf_withStack k p _)
  case addReg | sub | subn | shr | shl =>
    exact congrArg Host.Outcome.next (s.setRegAndFlag_withStack k p _ _ _)
  case drw x y n => exact execDrw_withStack s k p x y n
  case skp x _ | sknp x _ =>
    exact endHandler_withStack s k p _ (map_withStack k p (s.keyNamed x) fun _ => s.skipIf_withStack k p _)
  case ldVxK x => exact execLdVxK_withStack s k p x
  case ldB => exact endHandler_withStack s k p _ (s.memWrites_withStack k p _ _)
  case ldStore x => exact execLdStore_withStack s k p x
  case ldLoad x => exact execLdLoad_withStack s k p x
  all_goals rfl

end

/-! ## RET and the view -/

theorem State.popPc_keeps_stack {s t : State} (h : s.popPc = .ok t) : t.stack = s.stack := by
  unfold State.popPc at h
  split at h <;> cases h
  rfl

theorem exec_ret_keeps_stack {g : Byte} {s t : State} (h : exec (.ret g) s = .next t) : t.stack = s.stack := by
  rcases endHandler_next_cases h with hpop | ⟨r, -, rfl⟩
  · exact State.popPc_keeps_stack hpop
  · rfl

/-- Settles O31: `withStack` commutes with every other handler, and neither a pop nor a fault entry moves a slot. -/
theorem stackIsReachedByCallAndRetOnly : Obligations.StackIsReachedByCallAndRetOnly :=
  ⟨fun i s k p => exec_withStack s k p i, fun _ _ _ => exec_ret_keeps_stack⟩

end Sys2Proof.Machine
end

section
/-! PROOFS. The ALU (42_alu.md R141-R151, R158): the encoding lines, the handlers as equations over the two register
writes of the model, and the wrapped results and flags as the rules write them. -/

namespace Sys2Proof.Machine

/-! ## Encodings (R75, R77) -/

theorem ldImm_encoded : EncodedAs 0xF000 0x6000 (fun op => .ldImm (Op.x op) (Op.kk op)) :=
  encodedAs_of_family (f := 0x6) fun op hf => by simp [decode, hf]

theorem addImm_encoded : EncodedAs 0xF000 0x7000 (fun op => .addImm (Op.x op) (Op.kk op)) :=
  encodedAs_of_family (f := 0x7) fun op hf => by simp [decode, hf]

theorem rnd_encoded : EncodedAs 0xF000 0xC000 (fun op => .rnd (Op.x op) (Op.kk op)) :=
  encodedAs_of_family (f := 0xC) fun op hf => by simp [decode, hf]

/-- A slot of family 8 is encoded as the secondary table of R77 reads it. -/
theorem encodedAs_of_slot8 {c : BitVec 4} {i : Word → Instr} (h : ∀ op, Op.n op = c → decode8 op = i op) :
    EncodedAs 0xF00F (packNibbles 0x8 0 0 c) i :=
  encodedAs_of_family_nibble fun op hf hn => by
    have hdispatch : decode op = decode8 op := by simp [decode, hf]
    exact hdispatch.trans (h op hn)

theorem ldReg_encoded : EncodedAs 0xF00F 0x8000 (fun op => .ldReg (Op.x op) (Op.y op)) :=
  encodedAs_of_slot8 (c := 0x0) fun op hn => by simp [decode8, hn]

theorem or_encoded : EncodedAs 0xF00F 0x8001 (fun op => .or (Op.x op) (Op.y op)) :=
  encodedAs_of_slot8 (c := 0x1) fun op hn => by simp [decode8, hn]

theorem and_encoded : EncodedAs 0xF00F 0x8002 (fun op => .and (Op.x op) (Op.y op)) :=
  encodedAs_of_slot8 (c := 0x2) fun op hn => by simp [decode8, hn]

theorem xor_encoded : EncodedAs 0xF00F 0x8003 (fun op => .xor (Op.x op) (Op.y op)) :=
  encodedAs_of_slot8 (c := 0x3) fun op hn => by simp [decode8, hn]

theorem addReg_encoded : EncodedAs 0xF00F 0x8004 (fun op => .addReg (Op.x op) (Op.y op)) :=
  encodedAs_of_slot8 (c := 0x4) fun op hn => by simp [decode8, hn]

theorem sub_encoded : EncodedAs 0xF00F 0x8005 (fun op => .sub (Op.x op) (Op.y op)) :=
  encodedAs_of_slot8 (c := 0x5) fun op hn => by simp [decode8, hn]

theorem shr_encoded : EncodedAs 0xF00F 0x8006 (fun op => .shr (Op.x op) (Op.y op)) :=
  encodedAs_of_slot8 (c := 0x6) fun op hn => by simp [decode8, hn]

theorem subn_encoded : EncodedAs 0xF00F 0x8007 (fun op => .subn (Op.x op) (Op.y op)) :=
  encodedAs_of_slot8 (c := 0x7) fun op hn => by simp [decode8, hn]

theorem shl_encoded : EncodedAs 0xF00F 0x800E (fun op => .shl (Op.x op) (Op.y op)) :=
  encodedAs_of_slot8 (c := 0xE) fun op hn => by simp [decode8, hn]

/-! ## Handlers that write one register (R141-R146) -/

section
variable (s : State) (x y : Reg) (kk : Byte)

theorem exec_ldImm : exec (.ldImm x kk) s = .next (s.setReg x kk) := rfl

theorem exec_addImm : exec (.addImm x kk) s = .next (s.setReg x (s.reg x + kk)) := rfl

theorem exec_ldReg : exec (.ldReg x y) s = .next (s.setReg x (s.reg y)) := rfl

theorem exec_or : exec (.or x y) s = .next (s.setReg x (s.reg x ||| s.reg y)) := rfl

theorem exec_and : exec (.and x y) s = .next (s.setReg x (s.reg x &&& s.reg y)) := rfl

theorem exec_xor : exec (.xor x y) s = .next (s.setReg x (s.reg x ^^^ s.reg y)) := rfl

theorem exec_rnd : exec (.rnd x kk) s = .next (s.setReg x (s.draw &&& kk)).takeDraw := rfl

/-! ## Handlers that write a result and a flag (R147-R151) -/

theorem exec_addReg :
    exec (.addReg x y) s = .next (s.setRegAndFlag x (s.reg x + s.reg y) (carryFlag (s.reg x) (s.reg y))) := rfl

theorem exec_sub :
    exec (.sub x y) s = .next (s.setRegAndFlag x (s.reg x - s.reg y) (noBorrowFlag (s.reg x) (s.reg y))) := rfl

theorem exec_subn :
    exec (.subn x y) s = .next (s.setRegAndFlag x (s.reg y - s.reg x) (noBorrowFlag (s.reg y) (s.reg x))) := rfl

theorem exec_shr :
    exec (.shr x y) s =
      .next (s.setRegAndFlag x (s.shiftOperand x y >>> 1) (shiftOutRight (s.shiftOperand x y))) := rfl

theorem exec_shl :
    exec (.shl x y) s =
      .next (s.setRegAndFlag x (s.shiftOperand x y <<< 1) (shiftOutLeft (s.shiftOperand x y))) := rfl

end

/-! ## What the two register writes answer -/

theorem State.reg_setReg_of_ne (s : State) {x r : Reg} (b : Byte) (h : r ≠ x) : (s.setReg x b).reg r = s.reg r := by
  rw [State.reg_setReg, if_neg h]

theorem answers_of_setReg {i : Instr} {s : State} {x : Reg} {b : Byte} (h : exec i s = .next (s.setReg x b)) :
    ∃ t, exec i s = .next t ∧ t.reg x = b ∧ (∀ r : Reg, r ≠ x → t.reg r = s.reg r) ∧ UnchangedBut [.regs] s t :=
  ⟨_, h, s.reg_setReg_same x b, fun _ => s.reg_setReg_of_ne b, s.setReg_unchanged x b⟩

theorem answers_of_setRegAndFlag {i : Instr} {s : State} {x : Reg} {res flag res' flag' : Byte}
    (h : exec i s = .next (s.setRegAndFlag x res flag)) (hres : res = res') (hflag : flag = flag') :
    ∃ t, exec i s = .next t ∧ ResultAndFlag s t x res' flag' ∧ UnchangedBut [.regs] s t := by
  subst hres hflag
  exact ⟨_, h, s.setRegAndFlag_spec x res flag⟩

theorem State.takeDraw_unchanged (s : State) : UnchangedBut [.draws] s s.takeDraw := by
  intro p hp
  cases p
  case draws => simp at hp
  case stack => exact ⟨rfl, rfl⟩
  case memory | regs => exact fun _ => rfl
  all_goals rfl

/-! ## Results (R140, R149, R151) -/

section
variable (a b : Byte)

theorem byte_add_eq_ofNat_mod : a + b = BitVec.ofNat 8 ((a.toNat + b.toNat) % 256) := by bv_omega

theorem byte_sub_eq_ofNat_mod : a - b = BitVec.ofNat 8 ((a.toNat + 256 - b.toNat) % 256) := by bv_omega

theorem byte_shiftRight_one_eq_ofNat_div : a >>> 1 = BitVec.ofNat 8 (a.toNat / 2) := by
  apply BitVec.eq_of_toNat_eq
  rw [BitVec.toNat_ushiftRight, Nat.shiftRight_eq_div_pow, BitVec.toNat_ofNat]
  omega

theorem byte_shiftLeft_one_eq_ofNat_mod : a <<< 1 = BitVec.ofNat 8 (a.toNat * 2 % 256) := by
  apply BitVec.eq_of_toNat_eq
  rw [BitVec.toNat_shiftLeft, Nat.shiftLeft_eq, BitVec.toNat_ofNat, Nat.mod_mod, Nat.pow_one]

/-! ## Flags (R140) -/

theorem flagByte_decide (p : Prop) [Decidable p] : flagByte (decide p) = if p then 1 else 0 := by
  simp only [flagByte, decide_eq_true_eq]

theorem carryFlag_eq_ite : carryFlag a b = if a.toNat + b.toNat > 255 then 1 else 0 := flagByte_decide _

theorem noBorrowFlag_eq_ite : noBorrowFlag a b = if a.toNat > b.toNat then 1 else 0 := flagByte_decide _

theorem shiftOutRight_eq_ite : shiftOutRight a = if a.getLsbD 0 then 1 else 0 := rfl

theorem shiftOutLeft_eq_ite : shiftOutLeft a = if a.getLsbD 7 then 1 else 0 := rfl

end

/-! ## The obligations -/

/-- Settles O32: each is one register write, and the sum of two bytes wraps modulo 256. -/
theorem loadsAndAddImmediateWriteVxOnly : Obligations.LoadsAndAddImmediateWriteVxOnly := by
  refine ⟨ldImm_encoded, addImm_encoded, ldReg_encoded, fun x y kk s =>
    ⟨answers_of_setReg (exec_ldImm s x kk), ?_, answers_of_setReg (exec_ldReg s x y)⟩⟩
  obtain ⟨t, hexec, hx, hframe⟩ := answers_of_setReg (exec_addImm s x kk)
  exact ⟨t, hexec, hx ▸ BitVec.toNat_add _ _, hframe⟩

/-- Settles O33: each is one register write, of the bitwise result. -/
theorem logicWritesVxOnly : Obligations.LogicWritesVxOnly :=
  ⟨or_encoded, and_encoded, xor_encoded, fun x y s =>
    ⟨answers_of_setReg (exec_or s x y), answers_of_setReg (exec_and s x y), answers_of_setReg (exec_xor s x y)⟩⟩

/-- Settles O34, by the write of a result and a flag in `VF_ORDER`. -/
theorem addSetsVfToTheCarry : Obligations.AddSetsVfToTheCarry :=
  ⟨addReg_encoded, fun x y s =>
    answers_of_setRegAndFlag (exec_addReg s x y) (byte_add_eq_ofNat_mod _ _) (carryFlag_eq_ite _ _)⟩

/-- Settles O35: SUB and SUBN are one subtraction with the operands exchanged. -/
theorem subtractsSetVfWhenStrictlyGreater : Obligations.SubtractsSetVfWhenStrictlyGreater :=
  ⟨sub_encoded, subn_encoded, fun x y s =>
    ⟨answers_of_setRegAndFlag (exec_sub s x y) (byte_sub_eq_ofNat_mod _ _) (noBorrowFlag_eq_ite _ _),
     answers_of_setRegAndFlag (exec_subn s x y) (byte_sub_eq_ofNat_mod _ _) (noBorrowFlag_eq_ite _ _)⟩⟩

/-- Settles O36: the register `SHIFT_SRC` selects is the model's `shiftOperand`. -/
theorem shiftsSetVfToTheBitShiftedOut : Obligations.ShiftsSetVfToTheBitShiftedOut := by
  refine ⟨shr_encoded, shl_encoded, fun x y s a ha => ?_⟩
  obtain rfl : a = s.shiftOperand x y := ha
  exact
    ⟨answers_of_setRegAndFlag (exec_shr s x y) (byte_shiftRight_one_eq_ofNat_div _) (shiftOutRight_eq_ite _),
     answers_of_setRegAndFlag (exec_shl s x y) (byte_shiftLeft_one_eq_ofNat_mod _) (shiftOutLeft_eq_ite _)⟩

/-- Settles O38: the draw is taken after the register write, and a bit clear in the mask is clear in the result. -/
theorem rndMasksOneFreeDraw : Obligations.RndMasksOneFreeDraw := by
  refine ⟨rnd_encoded, fun x kk s => ⟨_, exec_rnd s x kk, ?_, rfl, fun r => ?_, fun b hb => ?_, ?_⟩⟩
  · rw [State.takeDraw_reg, State.reg_setReg_same, State.draw]
  · rw [State.takeDraw_reg]
    exact s.reg_setReg_of_ne _
  · rw [State.takeDraw_reg, State.reg_setReg_same, BitVec.getLsbD_and, hb, Bool.and_false]
  · have hwrite := s.setReg_unchanged x (s.draw &&& kk)
    have hdraw := (s.setReg x (s.draw &&& kk)).takeDraw_unchanged
    exact (hwrite.mono (by simp)).trans (hdraw.mono (by simp))

end Sys2Proof.Machine
end

section
/-! PROOFS. Overlays: a map on the state that keeps what the register, PC and timer operations read and commutes with
what they write, so that it commutes with every handler made of those operations alone. That a part of the state is
out of reach (as in 43_display.md R176) is then a matter of the few handlers that access memory, stack, display, keys
or draws. -/

namespace Sys2Proof.Machine

/-- `f` leaves the configuration, V, I, PC and DT as they are and commutes with the writes of V, I, PC, DT, ST and the
fault status. -/
structure Overlay (f : State → State) : Prop where
  cfg (s : State) : (f s).cfg = s.cfg
  v (s : State) : (f s).v = s.v
  i (s : State) : (f s).i = s.i
  pc (s : State) : (f s).pc = s.pc
  dt (s : State) : (f s).dt = s.dt
  set_v (s : State) (v : Vector Byte 16) : { f s with v := v } = f { s with v := v }
  set_i (s : State) (a : Word) : { f s with i := a } = f { s with i := a }
  set_pc (s : State) (a : Word) : { f s with pc := a } = f { s with pc := a }
  set_dt (s : State) (b : Byte) : { f s with dt := b } = f { s with dt := b }
  set_st (s : State) (b : Byte) : { f s with st := b } = f { s with st := b }
  set_fault (s : State) (q : FaultStatus) : { f s with fault := q } = f { s with fault := q }

namespace Overlay

variable {f : State → State} (hf : Overlay f) (s : State)
include hf

/-! ## The operations -/

theorem reg (x : Reg) : (f s).reg x = s.reg x := by rw [State.reg, State.reg, hf.v]

theorem setReg (x : Reg) (b : Byte) : (f s).setReg x b = f (s.setReg x b) := by
  rw [State.setReg, hf.v, hf.set_v, State.setReg]

theorem setRegs (k : Nat) (bs : List Byte) : (f s).setRegs k bs = f (s.setRegs k bs) := by
  induction bs generalizing s k with
  | nil => rfl
  | cons b bs ih => rw [State.setRegs, hf.v, hf.set_v, ih, State.setRegs]

theorem setRegAndFlag (x : Reg) (res flag : Byte) :
    (f s).setRegAndFlag x res flag = f (s.setRegAndFlag x res flag) := by
  unfold State.setRegAndFlag
  rw [hf.cfg]
  cases s.cfg.vfOrder with
  | flagLast => simp only [hf.setReg]
  | resultLast => simp only [hf.setReg]

theorem skipIf (c : Bool) : (f s).skipIf c = f (s.skipIf c) := by
  rw [State.skipIf_pc_ite, hf.pc, hf.set_pc, State.skipIf_pc_ite]

theorem blockAdvanceI (x : Reg) : (f s).blockAdvanceI x = f (s.blockAdvanceI x) := by
  unfold State.blockAdvanceI
  rw [hf.set_i, hf.cfg, hf.i]
  exact (apply_ite f _ _ _).symm

theorem shiftOperand (x y : Reg) : (f s).shiftOperand x y = s.shiftOperand x y := by
  simp only [State.shiftOperand, hf.cfg, hf.reg]

theorem setPc (a : Word) : (f s).setPc a = f (s.setPc a) := hf.set_pc s a

theorem setI (a : Word) : (f s).setI a = f (s.setI a) := hf.set_i s a

theorem rewindPc : (f s).rewindPc = f s.rewindPc := by rw [State.rewindPc, hf.set_pc, hf.pc, State.rewindPc]

theorem enterFault (op : Word) (r : Raise) : (f s).enterFault op r = f (s.enterFault op r) := by
  rw [State.enterFault, hf.set_fault, hf.pc, State.enterFault]

/-- A handler that may raise commutes when its computation does: fault entry commutes anyway. -/
theorem endHandler (i : Instr) {e e' : Except Raise State} (h : e' = e.map f) :
    endHandler i (f s) e' = mapNext f (endHandler i s e) := by
  subst h
  cases e with
  | ok t => rfl
  | error r => exact congrArg Host.Outcome.next (by rw [hf.rewindPc, hf.enterFault])

/-! ## Registers only -/

/-- The handlers that access V, I, PC, DT, ST and the configuration only. -/
theorem exec_of_registers_only (i : Instr)
    (hi : i.handler ∉ ([.cls, .drw, .call, .ret, .rnd, .skp, .sknp, .ldVxK, .ldB, .ldStore, .ldLoad] :
      List Handler)) :
    exec i (f s) = mapNext f (exec i s) := by
  cases i
  case cls | drw | call | ret | rnd | skp | sknp | ldVxK | ldB | ldStore | ldLoad =>
    exact absurd (by simp [Instr.handler]) hi
  case seImm | sneImm | seReg | sneReg =>
    simp only [exec_seImm, exec_sneImm, exec_seReg, exec_sneReg, mapNext, hf.reg, hf.skipIf]
  case ldImm | addImm | ldReg | or | and | xor =>
    simp only [exec_ldImm, exec_addImm, exec_ldReg, exec_or, exec_and, exec_xor, mapNext, hf.reg, hf.setReg]
  case addReg | sub | subn | shr | shl =>
    simp only [exec_addReg, exec_sub, exec_subn, exec_shr, exec_shl, mapNext, hf.reg, hf.shiftOperand,
      hf.setRegAndFlag]
  case jp | jpV0 => simp only [exec_jp, exec_jpV0, mapNext, State.v0Indexed, hf.reg, hf.setPc]
  case ldI | addI | ldF =>
    simp only [exec, execLdI, execAddI, execLdF, mapNext, State.fontAddr, hf.reg, hf.i, hf.setI]
  case ldVxDt => simp only [exec, execLdVxDt, mapNext, hf.dt, hf.setReg]
  case ldDtVx => simp only [exec, execLdDtVx, mapNext]; rw [hf.set_dt, hf.reg]
  case ldStVx => simp only [exec, execLdStVx, mapNext]; rw [hf.set_st, hf.reg]
  case nop => rfl

/-! ## Memory accesses -/

section
variable (hmem : ∀ s, (f s).mem = s.mem)
include hmem

theorem exec_ldLoad (x : Reg) : exec (.ldLoad x) (f s) = mapNext f (exec (.ldLoad x) s) := by
  refine hf.endHandler s _ ?_
  rw [hf.i, State.memReads_congr s (f s) _ _ (hmem s) (hf.cfg s)]
  cases s.memReads s.i.toNat (x.val + 1) with
  | error r => rfl
  | ok bs => exact congrArg Except.ok (by dsimp only; rw [hf.setRegs, hf.blockAdvanceI])

variable (hset : ∀ s m, { f s with mem := m } = f { s with mem := m })
include hset

theorem memWrites (a : Nat) (bs : List Byte) : (f s).memWrites a bs = (s.memWrites a bs).map f := by
  rw [State.memWrites_congr s (f s) a bs (hmem s) (hf.cfg s)]
  cases hw : s.memWrites a bs with
  | error r => rfl
  | ok t => exact congrArg Except.ok (by dsimp only; rw [hset, ← s.memWrites_eq t a bs hw])

theorem exec_ldB (x : Reg) : exec (.ldB x) (f s) = mapNext f (exec (.ldB x) s) :=
  hf.endHandler s _ (by rw [hf.memWrites s hmem hset, hf.i, hf.reg])

theorem exec_ldStore (x : Reg) : exec (.ldStore x) (f s) = mapNext f (exec (.ldStore x) s) := by
  refine hf.endHandler s _ ?_
  rw [hf.memWrites s hmem hset, hf.i, State.regsUpTo, hf.v, ← State.regsUpTo]
  cases s.memWrites s.i.toNat (s.regsUpTo x) with
  | error r => rfl
  | ok t => exact congrArg Except.ok (hf.blockAdvanceI t x)

end

/-! ## Key accesses -/

section
variable (hkey : ∀ s, (f s).key = s.key)
include hkey

/-- SKP and SKNP: a skip on what the named key gives. -/
theorem keySkip (x : Reg) (cond : Bool → Bool) :
    ((f s).keyNamed x).map (fun pressed => (f s).skipIf (cond pressed)) =
      ((s.keyNamed x).map fun pressed => s.skipIf (cond pressed)).map f := by
  have hnamed : (f s).keyNamed x = s.keyNamed x := by simp only [State.keyNamed, hf.reg, hkey]
  rw [hnamed]
  cases s.keyNamed x with
  | error r => rfl
  | ok pressed => exact congrArg Except.ok (hf.skipIf s _)

theorem exec_skp (x : Reg) (g : BitVec 4) : exec (.skp x g) (f s) = mapNext f (exec (.skp x g) s) :=
  hf.endHandler s _ (hf.keySkip s hkey x id)

theorem exec_sknp (x : Reg) (g : BitVec 4) : exec (.sknp x g) (f s) = mapNext f (exec (.sknp x g) s) :=
  hf.endHandler s _ (hf.keySkip s hkey x not)

theorem exec_ldVxK (x : Reg) : exec (.ldVxK x) (f s) = mapNext f (exec (.ldVxK x) s) := by
  simp only [exec, execLdVxK, hkey]
  cases scanKeys s.key 0 16 with
  | none => exact congrArg Host.Outcome.next (hf.rewindPc s)
  | some k => exact congrArg Host.Outcome.next (hf.setReg s x k)

end

end Overlay
end Sys2Proof.Machine
end

section
/-! PROOFS. Who reaches the frame buffer (43_display.md R176): putting another frame buffer in the state is an overlay. -/

namespace Sys2Proof.Machine

/-- This state with another frame buffer. -/
def State.withDisplay (fb : Vector Byte fbSize) (s : State) : State := { s with fb := fb }

theorem State.withDisplay_overlay (fb : Vector Byte fbSize) : Overlay (State.withDisplay fb) := by
  constructor <;> intros <;> rfl

section
variable (fb : Vector Byte fbSize) (s : State)

theorem State.pushPc_withDisplay : (s.withDisplay fb).pushPc = s.pushPc.map (State.withDisplay fb) := by
  unfold State.pushPc
  rw [apply_dite (Except.map _)]
  rfl

theorem State.popPc_withDisplay : (s.withDisplay fb).popPc = s.popPc.map (State.withDisplay fb) := by
  unfold State.popPc
  rw [apply_dite (Except.map _)]
  rfl

theorem exec_call_withDisplay (nnn : Addr12) :
    exec (.call nnn) (s.withDisplay fb) = mapNext (State.withDisplay fb) (exec (.call nnn) s) := by
  refine (State.withDisplay_overlay fb).endHandler s _ ?_
  rw [State.pushPc_withDisplay]
  cases s.pushPc <;> rfl

/-- CALL and RET reach the stack, RND the draws, the key handlers the keys and the block handlers memory, none of which
another frame buffer moves; the rest have registers only. -/
theorem exec_withDisplay (i : Instr) (hcls : i.handler ≠ .cls) (hdrw : i.handler ≠ .drw) :
    exec i (s.withDisplay fb) = mapNext (State.withDisplay fb) (exec i s) := by
  have hf := State.withDisplay_overlay fb
  cases i
  case cls => exact absurd rfl hcls
  case drw => exact absurd rfl hdrw
  case call nnn => exact exec_call_withDisplay fb s nnn
  case ret g => exact hf.endHandler s _ (s.popPc_withDisplay fb)
  case rnd => rfl
  case skp x g => exact hf.exec_skp s (fun _ => rfl) x g
  case sknp x g => exact hf.exec_sknp s (fun _ => rfl) x g
  case ldVxK x => exact hf.exec_ldVxK s (fun _ => rfl) x
  case ldB x => exact hf.exec_ldB s (fun _ => rfl) (fun _ _ => rfl) x
  case ldStore x => exact hf.exec_ldStore s (fun _ => rfl) (fun _ _ => rfl) x
  case ldLoad x => exact hf.exec_ldLoad s (fun _ => rfl) x
  all_goals exact hf.exec_of_registers_only s _ (by simp [Instr.handler])

end

theorem exec_cls (g : Byte) (s : State) : exec (.cls g) s = .next s.clearDisplay := rfl

/-- Settles O44: another frame buffer commutes with every other handler, and CLS writes every cell without a read. -/
theorem displayIsReachedByClsAndDrwOnly : Obligations.DisplayIsReachedByClsAndDrwOnly :=
  ⟨fun i s fb => exec_withDisplay fb s i, fun g s fb => by rw [exec_cls, exec_cls]; rfl⟩

end Sys2Proof.Machine
end

section
/-! PROOFS. From a decoded instruction back to its word: the row of R80 that selected the handler fixes the family, and
the fields do the rest. A fault records the fetched word (60_exceptions.md R232). -/

namespace Sys2Proof

/-- The row of R80 that selects the handler a word decodes to. -/
theorem exists_row_of_decode (op : Word) :
    ∃ r ∈ opcodeRows ++ [nopRow], r.handler = (decode op).handler ∧ r.matches op = true := by
  obtain ⟨r, hfind, hhandler⟩ := Option.map_eq_some_iff.mp (firstMatch_opcodeRows op)
  exact ⟨r, List.mem_of_find?_eq_some hfind, hhandler, List.find?_some (p := fun r : OpcodeRow => r.matches op)
    hfind⟩

theorem row_eq_of_handler_drw : ∀ r ∈ opcodeRows ++ [nopRow], r.handler = .drw → r = ⟨.drw, 0xD000, 0xF000⟩ := by
  decide

theorem family_of_decode_drw {op : Word} {x y : Reg} {n : BitVec 4} (h : decode op = .drw x y n) :
    Op.family op = 0xD := by
  obtain ⟨r, hmem, hhandler, hmatch⟩ := exists_row_of_decode op
  obtain rfl := row_eq_of_handler_drw r hmem (by rw [hhandler, h]; rfl)
  exact (and_F000_iff op 0xD).mp (beq_iff_eq.mp hmatch)

namespace Machine

theorem drw_encoded : EncodedAs 0xF000 0xD000 (fun op => .drw (Op.x op) (Op.y op) (Op.n op)) :=
  encodedAs_of_family (f := 0xD) fun op hf => by simp [decode, hf]

theorem encode_of_decode_drw {op : Word} {x y : Reg} {n : BitVec 4} (h : decode op = .drw x y n) :
    encode (.drw x y n) = op := by
  have hf := family_of_decode_drw h
  have hfields : decode op = .drw (Op.x op) (Op.y op) (Op.n op) := drw_encoded op ((and_F000_iff op 0xD).mpr hf)
  rw [← h, hfields, encode, ← hf, packNibbles_fields]

end Machine
end Sys2Proof
end

section
/-! PROOFS. The display (43_display.md R170-R175): CLS as an equation, the sprite of a draw as the list of its rows, and
the two outcomes of DRW. -/

namespace Sys2Proof.Machine

/-! ## CLS (R170) -/

theorem cls_encoded : EncodedAs 0xF00F 0x0000 (fun op => .cls (Op.ign8 op)) :=
  encodedAs_of_family_nibble (f := 0x0) (c := 0x0) fun op hf hn => by simp [decode, decode0, hf, hn]

@[simp] theorem State.withDisplay_fb (s : State) (fb : Vector Byte fbSize) : (s.withDisplay fb).fb = fb := rfl

theorem State.withDisplay_unchanged (s : State) (fb : Vector Byte fbSize) :
    UnchangedBut [.display] s (s.withDisplay fb) := by
  intro p hp
  cases p
  case display => simp at hp
  case stack => exact ⟨rfl, rfl⟩
  case memory | regs => exact fun _ => rfl
  all_goals rfl

/-- Settles O40, by the equation of CLS. -/
theorem clsClearsEveryCell : Obligations.ClsClearsEveryCell :=
  ⟨cls_encoded, fun g s => ⟨_, exec_cls g s, fun _ => Vector.getElem_replicate _, s.withDisplay_unchanged _⟩⟩

/-! ## The sprite (R171, R172) -/

section
variable (s : State) (x y : Reg) (n : BitVec 4)

/-- The rows of the `n`-row sprite at I. -/
def State.spriteRows (n : Nat) : List Byte := (List.range n).map fun k => s.readByte (s.i.toNat + k)

theorem State.spriteRows_length (n : Nat) : (s.spriteRows n).length = n := by
  rw [State.spriteRows, List.length_map, List.length_range]

/-- The cells of R171 and R172 are those the model's draw targets. -/
theorem mem_spriteTargets_spriteRows (n : Nat) (c : Fin fbSize) :
    c ∈ spriteTargets (s.reg x).toNat (s.reg y).toNat (s.spriteRows n) ↔ SpriteHits s x y n c := by
  simp only [mem_spriteTargets, SpriteHits, State.spriteRows, List.length_map, List.length_range, List.getElem_map,
    List.getElem_range, Fin.ext_iff, cellIndex, exists_prop]

/-! ## The drawing -/

theorem State.drawSprite_eq (rows : List Byte) :
    s.drawSprite x y rows =
      (s.withDisplay (drawRows (s.reg x).toNat (s.reg y).toNat rows (s.fb, false)).1).setReg Reg.vf
        (flagByte (drawRows (s.reg x).toNat (s.reg y).toNat rows (s.fb, false)).2) := rfl

theorem State.drawSprite_unchanged (rows : List Byte) : UnchangedBut [.regs, .display] s (s.drawSprite x y rows) := by
  rw [State.drawSprite_eq]
  exact ((s.withDisplay_unchanged _).mono (by simp)).trans ((State.setReg_unchanged _ _ _).mono (by simp))

theorem State.drawSprite_reg_of_ne (rows : List Byte) {r : Reg} (h : r ≠ 15) :
    (s.drawSprite x y rows).reg r = s.reg r := by
  rw [State.drawSprite_eq, State.reg_setReg_of_ne _ _ h]
  rfl

variable {n : Nat} (hn : n ≤ 32)
include hn

theorem State.drawSprite_fb (c : Fin fbSize) [Decidable (SpriteHits s x y n c)] :
    (s.drawSprite x y (s.spriteRows n)).fb[c] = if SpriteHits s x y n c then s.fb[c] ^^^ 0xFF else s.fb[c] := by
  have hlen : (s.spriteRows n).length ≤ 32 := by rwa [State.spriteRows_length]
  have hcell := (drawRows_spec (s.reg x).toNat (s.reg y).toNat _ hlen (s.fb, false)).1 c
  rw [State.drawSprite_eq, State.setReg_fb, State.withDisplay_fb, hcell]
  simp only [mem_spriteTargets_spriteRows]

theorem State.drawSprite_vf [Decidable (∃ c : Fin fbSize, SpriteHits s x y n c ∧ s.fb[c] = 0xFF)] :
    (s.drawSprite x y (s.spriteRows n)).reg 15 =
      if ∃ c : Fin fbSize, SpriteHits s x y n c ∧ s.fb[c] = 0xFF then 1 else 0 := by
  have hlen : (s.spriteRows n).length ≤ 32 := by rwa [State.spriteRows_length]
  have hflag := (drawRows_spec (s.reg x).toNat (s.reg y).toNat _ hlen (s.fb, false)).2
  rw [State.drawSprite_eq, State.reg_setReg_same, hflag]
  simp only [flagByte, Bool.false_or, List.any_eq_true, beq_iff_eq, mem_spriteTargets_spriteRows]

end

/-! ## The outcomes of DRW -/

section
variable (s : State) (x y : Reg) (n : BitVec 4)

theorem exec_drw :
    exec (.drw x y n) s =
      endHandler (.drw x y n) s ((s.memReads s.i.toNat n.toNat).map fun rows => s.drawSprite x y rows) := rfl

theorem State.memReads_spriteRows (h : n = 0 ∨ s.i.toNat + (n.toNat - 1) ≤ 0xFFF) :
    s.memReads s.i.toNat n.toNat = .ok (s.spriteRows n.toNat) := by
  by_cases hn : n = 0
  · subst hn; rfl
  · have hi := h.resolve_left hn
    have hpos : 0 < n.toNat := by bv_omega
    exact s.memReads_ok _ _ (by unfold memSize; omega)

theorem exec_drw_of_in_memory (h : n = 0 ∨ s.i.toNat + (n.toNat - 1) ≤ 0xFFF) :
    exec (.drw x y n) s = .next (s.drawSprite x y (s.spriteRows n.toNat)) := by
  rw [exec_drw, s.memReads_spriteRows n h]
  rfl

theorem drw_faults (hn : n ≠ 0) (h : 0xFFF < s.i.toNat + (n.toNat - 1)) :
    FaultsAs (.drw x y n) s .readOutOfBounds (BitVec.ofNat 16 (max s.i.toNat 0x1000)) := by
  have hpos : 0 < n.toNat := by bv_omega
  rw [FaultsAs, exec_drw, s.memReads_error _ _ hpos (by unfold memSize; omega)]
  rfl

end

/-- Settles O41: the rows read are the sprite at I, drawn cell by cell; a read past memory faults. -/
theorem drawXorsTheTargetedCells : Obligations.DrawXorsTheTargetedCells := by
  classical
  refine ⟨drw_encoded, fun x y n s h => ?_, fun x y n s => drw_faults s x y n⟩
  have hn : n.toNat ≤ 32 := by omega
  refine ⟨_, exec_drw_of_in_memory s x y n h, fun c hit => ?_, fun c miss => ?_, fun on => ?_, fun off => ?_,
    fun r => s.drawSprite_reg_of_ne x y _, s.drawSprite_unchanged x y _⟩
  · rw [s.drawSprite_fb x y hn, if_pos hit]
  · rw [s.drawSprite_fb x y hn, if_neg miss]
  · rw [s.drawSprite_vf x y hn, if_pos on]
  · rw [s.drawSprite_vf x y hn, if_neg off]

/-! ## A sprite past memory (R174) -/

/-- A step whose handler raises is the state before the cycle with the fault status written (R232). -/
theorem step_of_faultsAs {s : State} {i : Instr} {cause : FaultCause} {addr : Word} (hf : s.fault.faulted = false)
    (hp : s.pc.toNat ≤ 0xFFE) (hi : decode s.fetchWord = i) (h : FaultsAs i s.advancePc cause addr) :
    step s = .next { s with fault := ⟨true, cause, s.pc, encode i, addr⟩ } := by
  subst hi
  rw [step_of_exec s _ hf hp h, if_pos rfl, State.advancePc_pc, pc_add_two_sub_two]
  rfl

/-- Settles O42: the handler faults, which discards the cycle, and the decoded word is the fetched one. -/
theorem spritePastMemoryFaultsAndDrawsNothing : Obligations.SpritePastMemoryFaultsAndDrawsNothing := by
  rintro x y n s hf hp hdecode ⟨row, hrow, hpast⟩
  have hn : n ≠ 0 := by rintro rfl; exact absurd hrow (Nat.not_lt_zero row)
  have hfault := drw_faults s.advancePc x y n hn (by rw [State.advancePc_i]; omega)
  rw [step_of_faultsAs hf hp hdecode hfault, encode_of_decode_drw hdecode, State.advancePc_i]

/-! ## Height 0 (R175) -/

theorem exec_drw_zero (s : State) (x y : Reg) : exec (.drw x y 0) s = .next (s.setReg Reg.vf 0) := rfl

/-- Settles O43: a sprite of no rows is one register write. -/
theorem heightZeroDrawsNothingAndClearsVf : Obligations.HeightZeroDrawsNothingAndClearsVf :=
  fun x y s => answers_of_setReg (exec_drw_zero s x y)

end Sys2Proof.Machine
end

section
/-! PROOFS. Keys and timers (44_keys_timers.md R180-R186): the encoding lines of families E and F, the key handlers by
what the named key and the scan give, and the timer loads by themselves and in a coupled cycle. -/

namespace Sys2Proof.Machine

/-! ## Encodings (R78, R79) -/

/-- A slot of family E is encoded as the secondary table of R78 reads it. -/
theorem encodedAs_of_slotE {c : BitVec 4} {i : Word → Instr} (h : ∀ op, Op.n op = c → decodeE op = i op) :
    EncodedAs 0xF00F (packNibbles 0xE 0 0 c) i :=
  encodedAs_of_family_nibble fun op hf hn => by
    have hdispatch : decode op = decodeE op := by simp [decode, hf]
    exact hdispatch.trans (h op hn)

theorem skp_encoded : EncodedAs 0xF00F 0xE00E (fun op => .skp (Op.x op) (Op.mid op)) :=
  encodedAs_of_slotE (c := 0xE) fun op hn => by simp [decodeE, hn]

theorem sknp_encoded : EncodedAs 0xF00F 0xE001 (fun op => .sknp (Op.x op) (Op.mid op)) :=
  encodedAs_of_slotE (c := 0x1) fun op hn => by simp [decodeE, hn]

/-- A slot of family F is encoded as the secondary table of R79 reads it. -/
theorem encodedAs_of_slotF {k : Byte} {i : Word → Instr} (h : ∀ op, Op.kk op = k → decodeF op = i op) :
    EncodedAs 0xF0FF (packByte 0xF 0 k) i := fun op hop => by
  obtain ⟨hf, hk⟩ := (and_F0FF_iff op 0xF k).mp hop
  have hdispatch : decode op = decodeF op := by simp [decode, hf]
  exact hdispatch.trans (h op hk)

theorem ldVxDt_encoded : EncodedAs 0xF0FF 0xF007 (fun op => .ldVxDt (Op.x op)) :=
  encodedAs_of_slotF (k := 0x07) fun op hk => by simp [decodeF, hk]

theorem ldVxK_encoded : EncodedAs 0xF0FF 0xF00A (fun op => .ldVxK (Op.x op)) :=
  encodedAs_of_slotF (k := 0x0A) fun op hk => by simp [decodeF, hk]

theorem ldDtVx_encoded : EncodedAs 0xF0FF 0xF015 (fun op => .ldDtVx (Op.x op)) :=
  encodedAs_of_slotF (k := 0x15) fun op hk => by simp [decodeF, hk]

theorem ldStVx_encoded : EncodedAs 0xF0FF 0xF018 (fun op => .ldStVx (Op.x op)) :=
  encodedAs_of_slotF (k := 0x18) fun op hk => by simp [decodeF, hk]

/-! ## The key skips (R180-R182) -/

/-- A skip on what `cond` makes of the key V[x] names: the computation of SKP and, with `cond` negation, of SKNP. -/
def State.keySkip (s : State) (x : Reg) (cond : Bool → Bool) : Except Raise State :=
  (s.keyNamed x).map fun pressed => s.skipIf (cond pressed)

section
variable (s : State) (x : Reg) (g : BitVec 4)

theorem exec_skp : exec (.skp x g) s = endHandler (.skp x g) s (s.keySkip x id) := rfl

theorem exec_sknp : exec (.sknp x g) s = endHandler (.sknp x g) s (s.keySkip x not) := rfl

theorem State.skipIf_pc (c : Bool) : (s.skipIf c).pc = if c = true then s.pc + 2 else s.pc := by
  rw [State.skipIf_pc_ite]

theorem State.skipIf_not_pc (c : Bool) : (s.skipIf (!c)).pc = if c = true then s.pc else s.pc + 2 := by
  cases c <;> rfl

section
variable {x} {k : Fin 16} (hk : (s.reg x).toNat = k.val)
include hk

theorem State.keySkip_of_index (cond : Bool → Bool) : s.keySkip x cond = .ok (s.skipIf (cond s.key[k])) := by
  have hnamed : s.keyNamed x = .ok s.key[k] := by
    rw [s.keyNamed_ok x (by omega)]
    simp only [hk, Fin.getElem_fin]
  rw [State.keySkip, hnamed]
  rfl

theorem exec_skp_of_index : exec (.skp x g) s = .next (s.skipIf s.key[k]) := by
  rw [exec_skp, s.keySkip_of_index hk, endHandler_ok, id]

theorem exec_sknp_of_index : exec (.sknp x g) s = .next (s.skipIf !s.key[k]) := by
  rw [exec_sknp, s.keySkip_of_index hk, endHandler_ok]

end

section
variable {x} (h : 0xF < (s.reg x).toNat)
include h

/-- An index above 15 raises with the register's value, whatever the condition (R182). -/
theorem State.keySkip_error (cond : Bool → Bool) :
    s.keySkip x cond = .error ⟨.keyIndexOutOfRange, BitVec.ofNat 16 (s.reg x).toNat⟩ := by
  rw [State.keySkip, s.keyNamed_error x h, BitVec.ofNat_toNat]
  rfl

theorem skp_faults : FaultsAs (.skp x g) s .keyIndexOutOfRange (BitVec.ofNat 16 (s.reg x).toNat) := by
  rw [FaultsAs, exec_skp, s.keySkip_error h, endHandler_error]

theorem sknp_faults : FaultsAs (.sknp x g) s .keyIndexOutOfRange (BitVec.ofNat 16 (s.reg x).toNat) := by
  rw [FaultsAs, exec_sknp, s.keySkip_error h, endHandler_error]

end

end

/-- Settles O46: both skips are one conditional advance of the PC on the named key, and both fault where no key is
named. -/
theorem keySkipsTestTheNamedKey : Obligations.KeySkipsTestTheNamedKey :=
  ⟨skp_encoded, sknp_encoded,
    fun _ g s _ hk =>
      ⟨⟨_, exec_skp_of_index s g hk, s.skipIf_pc _, s.skipIf_unchanged _⟩,
       ⟨_, exec_sknp_of_index s g hk, s.skipIf_not_pc _, s.skipIf_unchanged _⟩⟩,
    fun _ g s h => ⟨skp_faults s g h, sknp_faults s g h⟩⟩

/-! ## The key wait (R183) -/

section
variable (s : State) (x : Reg)

theorem exec_ldVxK_of_lowest {k : Fin 16} (hk : s.key[k] = true) (hlow : ∀ j : Fin 16, j < k → s.key[j] = false) :
    exec (.ldVxK x) s = .next (s.setReg x (BitVec.ofNat 8 k.val)) := by
  have hscan : scanKeys s.key 0 16 = some (BitVec.ofNat 8 k.val) :=
    scanKeys_some s.key 0 16 k.val k.val.zero_le (by omega) le_rfl hk fun j hj _ hjk => hlow ⟨j, hj⟩ hjk
  simp only [exec, execLdVxK, hscan]

theorem exec_ldVxK_of_none (hnone : ∀ j : Fin 16, s.key[j] = false) : exec (.ldVxK x) s = .next s.rewindPc := by
  have hscan : scanKeys s.key 0 16 = none := scanKeys_none s.key 0 16 le_rfl fun j hj => hnone ⟨j, hj⟩
  simp only [exec, execLdVxK, hscan]

theorem State.rewindPc_unchanged : UnchangedBut [.pc] s s.rewindPc := s.setPc_unchanged (s.pc - 2)

end

/-- Settles O47, by the two outcomes of the ascending scan; a key index fits the register it is stored in. -/
theorem keyWaitTakesTheLowestPressedKey : Obligations.KeyWaitTakesTheLowestPressedKey := by
  refine ⟨ldVxK_encoded, fun x s k hk hlow => ?_, fun x s hnone =>
    ⟨_, exec_ldVxK_of_none s x hnone, s.rewindPc_pc, s.rewindPc_unchanged⟩⟩
  obtain ⟨t, hexec, hx, hothers, hframe⟩ := answers_of_setReg (exec_ldVxK_of_lowest s x hk hlow)
  have hindex : (BitVec.ofNat 8 k.val).toNat = k.val := Nat.mod_eq_of_lt (by omega)
  exact ⟨t, hexec, by rw [hx, hindex], hothers, hframe⟩

/-! ## The timer loads (R184-R186) -/

section
variable (s : State) (x : Reg)

theorem exec_ldVxDt : exec (.ldVxDt x) s = .next (s.setReg x s.dt) := rfl

theorem exec_ldDtVx : exec (.ldDtVx x) s = .next { s with dt := s.reg x } := rfl

theorem exec_ldStVx : exec (.ldStVx x) s = .next { s with st := s.reg x } := rfl

theorem State.dt_update_unchanged (b : Byte) : UnchangedBut [.delay] s { s with dt := b } := by
  intro p hp
  cases p
  case delay => simp at hp
  case stack => exact ⟨rfl, rfl⟩
  case memory | regs => exact fun _ => rfl
  all_goals rfl

theorem State.st_update_unchanged (b : Byte) : UnchangedBut [.sound] s { s with st := b } := by
  intro p hp
  cases p
  case sound => simp at hp
  case stack => exact ⟨rfl, rfl⟩
  case memory | regs => exact fun _ => rfl
  all_goals rfl

/-! ## The coupled tick after a handler (R105) -/

@[simp] theorem State.tick_reg (r : Reg) : s.tick.reg r = s.reg r := by
  rw [s.tick_eq]
  rfl

theorem State.tick_timers_coupled (h : s.cfg.timerMode = .coupled) :
    s.tick.dt.toNat = s.dt.toNat - 1 ∧ s.tick.st.toNat = s.st.toNat - 1 := by
  have htimers := s.tick_timers
  rwa [if_pos (.inl h)] at htimers

end

/-- A coupled cycle whose handler keeps the fault status clear: both timers go down from what the handler left, and the
registers are the handler's. -/
theorem step_coupled_of_exec {s u : State} {i : Instr} (hf : s.fault.faulted = false) (hp : s.pc.toNat ≤ 0xFFE)
    (hmode : s.cfg.timerMode = .coupled) (hi : decode s.fetchWord = i) (hexec : exec i s.advancePc = .next u)
    (hu : u.fault.faulted = false) :
    ∃ t, step s = .next t ∧ (∀ r : Reg, t.reg r = u.reg r) ∧ t.dt.toNat = u.dt.toNat - 1 ∧
      t.st.toNat = u.st.toNat - 1 := by
  subst hi
  have hcfg : u.cfg = s.cfg := exec_keeps_cfg (s := s.advancePc) hexec
  have hstep := step_of_exec s u hf hp hexec
  rw [if_neg (Bool.eq_false_iff.mp hu)] at hstep
  exact ⟨u.tick, hstep, u.tick_reg, u.tick_timers_coupled (by rw [hcfg, hmode])⟩

/-- Settles O49: each load is one write, of a register or of a timer, and the tick of a coupled cycle starts from it. -/
theorem timerLoadsMoveOneByte : Obligations.TimerLoadsMoveOneByte := by
  refine ⟨ldVxDt_encoded, ldDtVx_encoded, ldStVx_encoded, fun x s =>
    ⟨answers_of_setReg (exec_ldVxDt s x), ⟨_, exec_ldDtVx s x, rfl, s.dt_update_unchanged _⟩,
     ⟨_, exec_ldStVx s x, rfl, s.st_update_unchanged _⟩,
     fun hf hp hmode => ⟨fun hi => ?_, fun hi => ?_, fun hi => ?_⟩⟩⟩
  · obtain ⟨t, hstep, hreg, hdt, -⟩ := step_coupled_of_exec hf hp hmode hi (exec_ldVxDt _ x) hf
    exact ⟨t, hstep, by rw [hreg, State.reg_setReg_same, State.advancePc_dt], hdt⟩
  · obtain ⟨t, hstep, -, hdt, -⟩ := step_coupled_of_exec hf hp hmode hi (exec_ldDtVx _ x) hf
    exact ⟨t, hstep, hdt⟩
  · obtain ⟨t, hstep, -, -, hst⟩ := step_coupled_of_exec hf hp hmode hi (exec_ldStVx _ x) hf
    exact ⟨t, hstep, hst⟩

end Sys2Proof.Machine
end

section
/-! PROOFS. Index register, load and store (45_index_memory.md R201-R210): the encoding lines of the six instructions,
what the checked reads and writes do at an address, and the two outcomes of each transfer: completed, or past memory. -/

namespace Sys2Proof.Machine

/-! ## Encodings (R75, R79) -/

theorem ldI_encoded : EncodedAs 0xF000 0xA000 (fun op => .ldI (Op.nnn op)) :=
  encodedAs_of_family (f := 0xA) fun op hf => by simp [decode, hf]

theorem addI_encoded : EncodedAs 0xF0FF 0xF01E (fun op => .addI (Op.x op)) :=
  encodedAs_of_slotF (k := 0x1E) fun op hk => by simp [decodeF, hk]

theorem ldF_encoded : EncodedAs 0xF0FF 0xF029 (fun op => .ldF (Op.x op)) :=
  encodedAs_of_slotF (k := 0x29) fun op hk => by simp [decodeF, hk]

theorem ldB_encoded : EncodedAs 0xF0FF 0xF033 (fun op => .ldB (Op.x op)) :=
  encodedAs_of_slotF (k := 0x33) fun op hk => by simp [decodeF, hk]

theorem ldStore_encoded : EncodedAs 0xF0FF 0xF055 (fun op => .ldStore (Op.x op)) :=
  encodedAs_of_slotF (k := 0x55) fun op hk => by simp [decodeF, hk]

theorem ldLoad_encoded : EncodedAs 0xF0FF 0xF065 (fun op => .ldLoad (Op.x op)) :=
  encodedAs_of_slotF (k := 0x65) fun op hk => by simp [decodeF, hk]

/-- A slot of family F that one row of R80 selects: the word is what its instruction encodes to. -/
theorem encode_of_decode_slotF {h : Handler} {k : Byte} {i : Reg → Instr}
    (hrow : ∀ r ∈ opcodeRows ++ [nopRow], r.handler = h → r = byteRow 0xF h k) (hi : ∀ x, (i x).handler = h)
    (hencoded : EncodedAs 0xF0FF (packByte 0xF 0 k) fun op => i (Op.x op))
    (hword : ∀ x, encode (i x) = packByte 0xF x.bits k) {op : Word} {x : Reg} (hd : decode op = i x) :
    encode (i x) = op := by
  obtain ⟨r, hmem, hhandler, hmatch⟩ := exists_row_of_decode op
  obtain rfl := hrow r hmem (by rw [hhandler, hd, hi])
  have hmask : op &&& 0xF0FF = packByte 0xF 0 k := beq_iff_eq.mp hmatch
  obtain ⟨hfamily, hkk⟩ := (and_F0FF_iff op 0xF k).mp hmask
  have hfields : decode op = i (Op.x op) := hencoded op hmask
  rw [← hd, hfields, hword, ← hfamily, ← hkk, packByte_fields]

theorem encode_of_decode_ldStore {op : Word} {x : Reg} (h : decode op = .ldStore x) : encode (.ldStore x) = op :=
  encode_of_decode_slotF (i := .ldStore) (k := 0x55) (by decide) (fun _ => rfl) ldStore_encoded (fun _ => rfl) h

theorem encode_of_decode_ldLoad {op : Word} {x : Reg} (h : decode op = .ldLoad x) : encode (.ldLoad x) = op :=
  encode_of_decode_slotF (i := .ldLoad) (k := 0x65) (by decide) (fun _ => rfl) ldLoad_encoded (fun _ => rfl) h

/-! ## The digits (R205) -/

@[simp] theorem bcdDigits_length (b : Byte) : (bcdDigits b).length = 3 := rfl

theorem bcdDigits_ne_nil (b : Byte) : bcdDigits b ≠ [] := List.cons_ne_nil _ _

section
variable (s : State)

/-! ## Frames -/

theorem State.setI_unchanged (a : Word) : UnchangedBut [.index] s (s.setI a) := by
  intro p hp
  cases p
  case index => simp at hp
  case stack => exact ⟨rfl, rfl⟩
  case memory | regs => exact fun _ => rfl
  all_goals rfl

theorem State.mem_update_unchanged (m : Memory) : UnchangedBut [.memory] s { s with mem := m } := by
  intro p hp
  cases p
  case memory => simp at hp
  case stack => exact ⟨rfl, rfl⟩
  case regs => exact fun _ => rfl
  all_goals rfl

theorem State.v_update_unchanged (v : Vector Byte 16) : UnchangedBut [.regs] s { s with v := v } := by
  intro p hp
  cases p
  case regs => simp at hp
  case stack => exact ⟨rfl, rfl⟩
  case memory => exact fun _ => rfl
  all_goals rfl

theorem State.setRegs_unchanged (k : Nat) (bs : List Byte) : UnchangedBut [.regs] s (s.setRegs k bs) :=
  s.setRegs_eq k bs ▸ s.v_update_unchanged _

theorem State.blockAdvanceI_unchanged (x : Reg) : UnchangedBut [.index] s (s.blockAdvanceI x) :=
  s.blockAdvanceI_eq x ▸ s.setI_unchanged _

@[simp] theorem State.blockAdvanceI_readByte (x : Reg) (a : Nat) : (s.blockAdvanceI x).readByte a = s.readByte a :=
  s.blockAdvanceI_unchanged x .memory (by decide) a

@[simp] theorem State.blockAdvanceI_reg (x r : Reg) : (s.blockAdvanceI x).reg r = s.reg r :=
  s.blockAdvanceI_unchanged x .regs (by decide) r

/-- Where a block transfer leaves I, whatever the transfer itself changed (R207). -/
theorem State.blockAdvanceI_i_of_unchanged {ps : List Part} {t : State} (ht : UnchangedBut ps s t)
    (hindex : .index ∉ ps) (hconfig : .config ∉ ps) (x : Reg) :
    (t.blockAdvanceI x).i = if s.cfg.blockIncI = true then s.i + BitVec.ofNat 16 (x.val + 1) else s.i := by
  have hi : t.i = s.i := ht .index hindex
  have hcfg : t.cfg = s.cfg := ht .config hconfig
  rw [t.blockAdvanceI_i, hi, hcfg]

/-! ## Checked reads and writes (R57) -/

section
variable {s} {a : Nat}

/-- Reads inside memory: the bytes in order. -/
theorem State.memReads_bytes {n : Nat} (h : a + n ≤ memSize) :
    ∃ bs, s.memReads a n = .ok bs ∧ bs.length = n ∧ ∀ k (hk : k < bs.length), bs[k] = s.readByte (a + k) :=
  ⟨_, s.memReads_ok a n h, by simp, by simp⟩

/-- Writes inside canonical memory: the bytes in order, nothing else. -/
theorem State.memWrites_bytes {bs : List Byte} (h : a + bs.length ≤ memSize) (hw : Memory.wf s.cfg.font s.mem) :
    ∃ t, s.memWrites a bs = .ok t ∧ (∀ k (hk : k < bs.length), t.readByte (a + k) = bs[k]) ∧
      (∀ a', a' < a ∨ a + bs.length ≤ a' → t.readByte a' = s.readByte a') ∧ UnchangedBut [.memory] s t := by
  obtain ⟨t, hok, -, hread⟩ := s.memWrites_ok a bs h hw
  refine ⟨t, hok, fun k hk => ?_, fun a' ha' => ?_, s.memWrites_eq t a bs hok ▸ s.mem_update_unchanged _⟩
  · simp [hread, hk]
  · rw [hread, dif_neg (by omega)]

end

/-! ## The handlers (R201-R209) -/

variable (x : Reg)

theorem exec_ldI (nnn : Addr12) : exec (.ldI nnn) s = .next (s.setI (addrWord nnn)) := rfl

theorem exec_addI : exec (.addI x) s = .next (s.setI (s.i + (s.reg x).setWidth 16)) := rfl

theorem exec_ldF : exec (.ldF x) s = .next (s.setI (s.fontAddr x)) := rfl

theorem exec_ldB :
    exec (.ldB x) s = endHandler (.ldB x) s (s.memWrites s.i.toNat (bcdDigits (s.reg x))) := rfl

theorem exec_ldStore :
    exec (.ldStore x) s =
      endHandler (.ldStore x) s ((s.memWrites s.i.toNat (s.regsUpTo x)).map fun t => t.blockAdvanceI x) := rfl

theorem exec_ldLoad :
    exec (.ldLoad x) s =
      endHandler (.ldLoad x) s
        ((s.memReads s.i.toNat (x.val + 1)).map fun bs => (s.setRegs 0 bs).blockAdvanceI x) := rfl

/-! ## Past memory (R206, R210) -/

section
variable {s x}

theorem ldB_faults (h : 0xFFF < s.i.toNat + 2) :
    FaultsAs (.ldB x) s .writeOutOfBounds (BitVec.ofNat 16 (max s.i.toNat 0x1000)) := by
  have hpast : memSize < s.i.toNat + (bcdDigits (s.reg x)).length := by
    rw [bcdDigits_length]
    unfold memSize
    omega
  rw [FaultsAs, exec_ldB, s.memWrites_error _ _ (bcdDigits_ne_nil _) hpast, endHandler_error]

variable (h : 0xFFF < s.i.toNat + x.val)
include h

theorem ldStore_faults :
    FaultsAs (.ldStore x) s .writeOutOfBounds (BitVec.ofNat 16 (max s.i.toNat 0x1000)) := by
  have hlen := s.regsUpTo_length x
  have hne : s.regsUpTo x ≠ [] := List.ne_nil_of_length_eq_add_one hlen
  rw [FaultsAs, exec_ldStore, s.memWrites_error _ _ hne (by unfold memSize; omega)]
  rfl

theorem ldLoad_faults :
    FaultsAs (.ldLoad x) s .readOutOfBounds (BitVec.ofNat 16 (max s.i.toNat 0x1000)) := by
  rw [FaultsAs, exec_ldLoad, s.memReads_error _ _ x.val.succ_pos (by unfold memSize; omega)]
  rfl

end

end

/-! ## The obligations -/

/-- Settles O51: each of the three is one write of I; only the sum of ADD I can wrap. -/
theorem indexInstructionsWriteIOnly : Obligations.IndexInstructionsWriteIOnly := by
  refine ⟨ldI_encoded, addI_encoded, ldF_encoded, fun nnn x s =>
    ⟨⟨_, exec_ldI s nnn, addrWord_toNat nnn, s.setI_unchanged _⟩,
     ⟨_, exec_addI s x, ?_, s.setI_unchanged _⟩,
     ⟨_, exec_ldF s x, s.fontAddr_toNat x, s.setI_unchanged _⟩⟩⟩
  rw [State.setI_i]
  bv_omega

/-- Settles O52: the checked write of the three digits, whose bytes are the register's digits as numbers. -/
theorem bcdStoresThreeDigits : Obligations.BcdStoresThreeDigits := by
  refine ⟨ldB_encoded, fun x s hw h => ?_, fun x s => ldB_faults⟩
  obtain ⟨t, hok, hdigit, hothers, hframe⟩ :=
    State.memWrites_bytes (bs := bcdDigits (s.reg x)) (Nat.succ_le_succ h) hw
  have hundreds : t.readByte s.i.toNat = s.reg x / 100 := hdigit 0 (by simp)
  have htens : t.readByte (s.i.toNat + 1) = s.reg x / 10 % 10 := hdigit 1 (by simp)
  have hones : t.readByte (s.i.toNat + 2) = s.reg x % 10 := hdigit 2 (by simp)
  refine ⟨t, by rw [exec_ldB, hok, endHandler_ok], ?_, ?_, ?_, fun a ha => hothers a ha, hframe⟩
  · rw [hundreds, BitVec.toNat_udiv]; rfl
  · rw [htens, BitVec.toNat_umod, BitVec.toNat_udiv]; rfl
  · rw [hones, BitVec.toNat_umod]; rfl

/-- Settles O53: the checked write of V0..Vx, then the advance of I. -/
theorem blockStoreWritesV0ToVx : Obligations.BlockStoreWritesV0ToVx := by
  refine ⟨ldStore_encoded, fun x s hw h => ?_, fun x s => ldStore_faults⟩
  have hlen := s.regsUpTo_length x
  obtain ⟨t, hok, hstored, hothers, hframe⟩ :=
    State.memWrites_bytes (bs := s.regsUpTo x) (by rw [hlen]; exact Nat.succ_le_succ h) hw
  refine ⟨t.blockAdvanceI x, by rw [exec_ldStore, hok]; rfl, fun r (hr : r.val ≤ x.val) => ?_, fun a ha => ?_,
    s.blockAdvanceI_i_of_unchanged hframe (by decide) (by decide) x,
    (hframe.mono (by simp)).trans ((t.blockAdvanceI_unchanged x).mono (by simp))⟩
  · have hstored_r : r.val < (s.regsUpTo x).length := by omega
    rw [t.blockAdvanceI_readByte, hstored r.val hstored_r, s.regsUpTo_getElem]
  · rw [t.blockAdvanceI_readByte, hothers a (by omega)]

/-- Settles O54: the checked read of x + 1 bytes into the registers from V0 on, then the advance of I. -/
theorem blockLoadReadsV0ToVx : Obligations.BlockLoadReadsV0ToVx := by
  refine ⟨ldLoad_encoded, fun x s h => ?_, fun x s => ldLoad_faults⟩
  obtain ⟨bs, hok, hlen, hbyte⟩ := State.memReads_bytes (s := s) (n := x.val + 1) (Nat.succ_le_succ h)
  have hreg := s.setRegs_reg 0 bs (by omega)
  have hframe := s.setRegs_unchanged 0 bs
  refine ⟨(s.setRegs 0 bs).blockAdvanceI x, by rw [exec_ldLoad, hok]; rfl, fun r (hr : r.val ≤ x.val) => ?_,
    fun r (hr : x.val < r.val) => ?_,
    s.blockAdvanceI_i_of_unchanged hframe (by decide) (by decide) x,
    (hframe.mono (by simp)).trans ((State.blockAdvanceI_unchanged _ x).mono (by simp))⟩
  · have hloaded : 0 ≤ r.val ∧ r.val < 0 + bs.length := by omega
    rw [State.blockAdvanceI_reg, hreg, dif_pos hloaded, hbyte]
    rfl
  · rw [State.blockAdvanceI_reg, hreg, dif_neg (by omega)]

/-- Settles O55: the handler faults, which discards the cycle, and the decoded word is the fetched one. -/
theorem blockPastMemoryIsDiscarded : Obligations.BlockPastMemoryIsDiscarded := by
  refine fun x s hf hp hpast => ⟨fun hdecode => ?_, fun hdecode => ?_⟩
  · have hfault := ldStore_faults (s := s.advancePc) hpast
    rw [step_of_faultsAs hf hp hdecode hfault, encode_of_decode_ldStore hdecode, State.advancePc_i]
  · have hfault := ldLoad_faults (s := s.advancePc) hpast
    rw [step_of_faultsAs hf hp hdecode hfault, encode_of_decode_ldLoad hdecode, State.advancePc_i]

end Sys2Proof.Machine
end

section
/-! PROOFS. The word of a decoded instruction (30_encoding.md R72, R80): the fields a handler is given and those its row
fixes put the word together again. A fault records the fetched word (60_exceptions.md R232), whichever row it is of. -/

namespace Sys2Proof

section
variable {op : Word} {f : BitVec 4}

/-! ## Words from the fields a row fixes -/

theorem packNibbles_of_fields {c : BitVec 4} (hf : Op.family op = f) (hn : Op.n op = c) :
    packNibbles f (Op.x op).bits (Op.y op).bits c = op := by
  subst hf hn
  exact packNibbles_fields op

theorem packByte_of_fields {k : Byte} (hf : Op.family op = f) (hk : Op.kk op = k) :
    packByte f (Op.x op).bits k = op := by
  subst hf hk
  exact packByte_fields op

theorem packAddr_of_fields (hf : Op.family op = f) : packAddr f (Op.nnn op) = op := by
  subst hf
  exact packAddr_fields op

theorem packSel0_of_fields {c : BitVec 4} (hf : Op.family op = 0x0) (hn : Op.n op = c) :
    packSel0 (Op.ign8 op) c = op := by
  subst hn
  exact packSel0_fields op hf

/-! ## The secondary tables (R76-R79); the last branch of each is the no-op, which keeps the word -/

theorem encode_decode0 (hf : Op.family op = 0x0) : encode (decode0 op) = op := by
  unfold decode0
  split_ifs
  on_goal 3 => rfl
  all_goals exact packSel0_of_fields hf ‹_›

theorem encode_decode8 (hf : Op.family op = 0x8) : encode (decode8 op) = op := by
  unfold decode8
  split_ifs
  on_goal 10 => rfl
  all_goals exact packNibbles_of_fields hf ‹_›

theorem encode_decodeE (hf : Op.family op = 0xE) : encode (decodeE op) = op := by
  unfold decodeE
  split_ifs
  on_goal 3 => rfl
  all_goals exact packNibbles_of_fields hf ‹_›

theorem encode_decodeF (hf : Op.family op = 0xF) : encode (decodeF op) = op := by
  unfold decodeF
  split_ifs
  on_goal 10 => rfl
  all_goals exact packByte_of_fields hf ‹_›

end

/-! ## The primary table (R75) -/

theorem encode_decode (op : Word) : encode (decode op) = op := by
  generalize hf : Op.family op = f
  unfold decode
  rw [hf]
  match f with
  | 0x0 => exact encode_decode0 hf
  | 0x8 => exact encode_decode8 hf
  | 0xE => exact encode_decodeE hf
  | 0xF => exact encode_decodeF hf
  | 0x1 | 0x2 | 0xA | 0xB => exact packAddr_of_fields hf
  | 0x3 | 0x4 | 0x6 | 0x7 | 0xC => exact packByte_of_fields hf rfl
  | 0x5 | 0x9 | 0xD => exact packNibbles_of_fields hf rfl
  | .ofFin ⟨k + 16, hk⟩ => exact absurd hk (by omega)

end Sys2Proof
end

section
/-! PROOFS. Exceptions (60_exceptions.md R232, R233): each handler against its row of the table of causes, once, and from
it what a cycle that ends faulted can have been. -/

namespace Sys2Proof.Machine

/-! ## What a completed handler leaves of the fault status -/

section
variable (s : State)

@[simp] theorem State.tick_fault : s.tick.fault = s.fault := by rw [s.tick_eq]

@[simp] theorem State.skipIf_fault (c : Bool) : (s.skipIf c).fault = s.fault := by rw [s.skipIf_eq]

@[simp] theorem State.setRegAndFlag_fault (x : Reg) (res flag : Byte) :
    (s.setRegAndFlag x res flag).fault = s.fault := by rw [s.setRegAndFlag_eq]

@[simp] theorem State.setRegs_fault (k : Nat) (bs : List Byte) : (s.setRegs k bs).fault = s.fault := by
  rw [s.setRegs_eq]

@[simp] theorem State.blockAdvanceI_fault (x : Reg) : (s.blockAdvanceI x).fault = s.fault := by
  rw [s.blockAdvanceI_eq]

/-- Writes inside memory complete, canonical or not, and keep the fault status. -/
theorem State.memWrites_keeps_fault {a : Nat} {bs : List Byte} (h : a + bs.length ≤ memSize) :
    ∃ t, s.memWrites a bs = .ok t ∧ t.fault = s.fault := by
  obtain ⟨t, hok⟩ := s.memWrites_completes a bs h
  exact ⟨t, hok, by rw [s.memWrites_eq t a bs hok]⟩

end

/-! ## One handler against its row of R233 -/

/-- The handler of `i` at `s` does what a row of R233 says: with no fault due it completes and keeps the fault status,
else it raises the fault due. -/
def AnswersAsTabulated (i : Instr) (s : State) : Option (FaultCause × Nat) → Prop
  | none => ∃ t, exec i s = .next t ∧ t.fault = s.fault
  | some (cause, a) => FaultsAs i s cause (BitVec.ofNat 16 a)

theorem answersAsTabulated_ite {i : Instr} {s : State} {p : Prop} [Decidable p] {cause : FaultCause} {a : Nat}
    (hraises : p → FaultsAs i s cause (BitVec.ofNat 16 a))
    (hcompletes : ¬ p → ∃ t, exec i s = .next t ∧ t.fault = s.fault) :
    AnswersAsTabulated i s (if p then some (cause, a) else none) := by
  split
  case isTrue hp => exact hraises hp
  case isFalse hp => exact hcompletes hp

section
variable {s : State} {x y : Reg}

/-! ## The instructions with a row complete where its condition fails -/

theorem drw_completes {n : BitVec 4} (h : ¬ (0 < n.toNat ∧ 0xFFF < s.i.toNat + (n.toNat - 1))) :
    ∃ t, exec (.drw x y n) s = .next t ∧ t.fault = s.fault :=
  have hin : n = 0 ∨ s.i.toNat + (n.toNat - 1) ≤ 0xFFF := by bv_omega
  ⟨_, exec_drw_of_in_memory s x y n hin, s.drawSprite_unchanged x y _ .faultStatus (by decide)⟩

theorem ldLoad_completes (h : ¬ 0xFFF < s.i.toNat + x.val) :
    ∃ t, exec (.ldLoad x) s = .next t ∧ t.fault = s.fault := by
  have hok := s.memReads_ok s.i.toNat (x.val + 1) (by unfold memSize; omega)
  exact ⟨_, by rw [exec_ldLoad, hok]; rfl, by rw [State.blockAdvanceI_fault, State.setRegs_fault]⟩

theorem ldB_completes (h : ¬ 0xFFF < s.i.toNat + 2) : ∃ t, exec (.ldB x) s = .next t ∧ t.fault = s.fault := by
  have hin : s.i.toNat + (bcdDigits (s.reg x)).length ≤ memSize := by
    rw [bcdDigits_length]
    unfold memSize
    omega
  obtain ⟨t, hok, hfault⟩ := s.memWrites_keeps_fault hin
  exact ⟨t, by rw [exec_ldB, hok, endHandler_ok], hfault⟩

theorem ldStore_completes (h : ¬ 0xFFF < s.i.toNat + x.val) :
    ∃ t, exec (.ldStore x) s = .next t ∧ t.fault = s.fault := by
  have hin : s.i.toNat + (s.regsUpTo x).length ≤ memSize := by
    rw [s.regsUpTo_length]
    unfold memSize
    omega
  obtain ⟨t, hok, hfault⟩ := s.memWrites_keeps_fault hin
  exact ⟨t.blockAdvanceI x, by rw [exec_ldStore, hok]; rfl, by rw [t.blockAdvanceI_fault, hfault]⟩

theorem ret_completes {g : Byte} (h : ¬ s.sp.val = 0) : ∃ t, exec (.ret g) s = .next t ∧ t.fault = s.fault :=
  ⟨_, exec_ret_of_pos s g (by omega), rfl⟩

theorem call_completes {nnn : Addr12} (h : ¬ s.sp.val = 16) :
    ∃ t, exec (.call nnn) s = .next t ∧ t.fault = s.fault :=
  ⟨_, exec_call_of_lt s nnn (by omega), rfl⟩

section
variable {g : BitVec 4} (h : ¬ 0xF < (s.reg x).toNat)
include h

theorem skp_completes : ∃ t, exec (.skp x g) s = .next t ∧ t.fault = s.fault :=
  ⟨_, exec_skp_of_index s g (k := ⟨(s.reg x).toNat, by omega⟩) rfl, s.skipIf_fault _⟩

theorem sknp_completes : ∃ t, exec (.sknp x g) s = .next t ∧ t.fault = s.fault :=
  ⟨_, exec_sknp_of_index s g (k := ⟨(s.reg x).toNat, by omega⟩) rfl, s.skipIf_fault _⟩

end

/-! ## The key wait never raises -/

theorem ldVxK_completes : ∃ t, exec (.ldVxK x) s = .next t ∧ t.fault = s.fault := by
  simp only [exec, execLdVxK]
  cases scanKeys s.key 0 16 with
  | none => exact ⟨_, rfl, s.rewindPc_fault⟩
  | some k => exact ⟨_, rfl, s.setReg_fault x k⟩

end

/-! ## Every handler -/

/-- The eight instructions with a row raise or complete by its condition; the rest are one update of the state that does
not reach the fault status. -/
theorem exec_answersAsTabulated (i : Instr) (s : State) : AnswersAsTabulated i s (faultDue i s) := by
  cases i
  case drw x y n =>
    refine answersAsTabulated_ite (fun h => drw_faults s x y n ?_ h.2) drw_completes
    rintro rfl
    exact absurd h.1 (Nat.lt_irrefl 0)
  case ldLoad => exact answersAsTabulated_ite ldLoad_faults ldLoad_completes
  case ldB => exact answersAsTabulated_ite ldB_faults ldB_completes
  case ldStore => exact answersAsTabulated_ite ldStore_faults ldStore_completes
  case call nnn => exact answersAsTabulated_ite (call_faults s nnn) call_completes
  case ret g => exact answersAsTabulated_ite (ret_faults s g) ret_completes
  case skp x g => exact answersAsTabulated_ite (skp_faults s g) skp_completes
  case sknp x g => exact answersAsTabulated_ite (sknp_faults s g) sknp_completes
  case seImm | sneImm | seReg | sneReg => exact ⟨_, rfl, s.skipIf_fault _⟩
  case addReg | sub | subn | shr | shl => exact ⟨_, rfl, s.setRegAndFlag_fault _ _ _⟩
  case ldVxK => exact ldVxK_completes
  all_goals exact ⟨_, rfl, rfl⟩

section
variable {i : Instr} {s : State}

theorem exec_of_no_fault_due (h : faultDue i s = none) : ∃ t, exec i s = .next t ∧ t.fault = s.fault := by
  have hrow := exec_answersAsTabulated i s
  rwa [h] at hrow

theorem faultsAs_of_faultDue {cause : FaultCause} {a : Nat} (h : faultDue i s = some (cause, a)) :
    FaultsAs i s cause (BitVec.ofNat 16 a) := by
  have hrow := exec_answersAsTabulated i s
  rwa [h] at hrow

/-- The causes of handlers; `FetchOutOfBounds` is the cycle's own (R234). -/
theorem cause_of_faultDue {cause : FaultCause} {a : Nat} (h : faultDue i s = some (cause, a)) :
    cause ≠ .none ∧ cause ≠ .fetchOutOfBounds := by
  cases i
  case drw | ldLoad | ldB | ldStore | call | ret | skp | sknp =>
    obtain ⟨-, hrow⟩ := Option.ite_none_right_eq_some.mp h
    cases hrow
    decide
  all_goals cases h

/-- A handler that ends faulted where it began unfaulted had a fault due, and raised it. -/
theorem faultDue_of_exec_faulted {u : State} (hs : s.fault.faulted = false) (h : exec i s = .next u)
    (hu : u.fault.faulted = true) : ∃ cause a, faultDue i s = some (cause, a) := by
  cases hdue : faultDue i s with
  | some row => exact ⟨row.1, row.2, rfl⟩
  | none =>
    obtain ⟨t, hexec, hkept⟩ := exec_of_no_fault_due hdue
    obtain rfl : u = t := Host.Outcome.next.inj (h.symm.trans hexec)
    rw [hkept, hs] at hu
    cases hu

end

/-! ## The obligations -/

/-- Settles O22: every handler against its row, and the cycle's own fetch fault; the codes are `FaultCause.code`. -/
theorem causesAreRaisedExactlyAsTabulated : Obligations.CausesAreRaisedExactlyAsTabulated := by
  refine ⟨fun i s => ?_, step_of_fetch_fault, rfl, rfl, rfl, rfl, rfl, rfl, rfl⟩
  split
  case h_1 hdue => exact exec_of_no_fault_due hdue
  case h_2 hdue => exact faultsAs_of_faultDue hdue

/-- Settles O21: the tick faults nobody, so the cycle ended at the fetch or at a handler that raised the fault due, and
the decoded instruction gives the fetched word back. -/
theorem faultingCycleIsDiscarded : Obligations.FaultingCycleIsDiscarded := by
  intro s t hs hstep ht
  rcases step_next_cases s t hstep with ⟨hfaulted, -⟩ | ⟨-, hpc, rfl⟩ | ⟨-, hpc, u, hexec, rfl⟩
  · exact absurd hfaulted (by simp [hs])
  · exact ⟨.fetchOutOfBounds, s.pc, by decide, rfl, .inl ⟨rfl, rfl, hpc⟩⟩
  · have hu : u.fault.faulted = true := by
      split at ht
      case isTrue hu => exact hu
      case isFalse => rwa [u.tick_fault] at ht
    obtain ⟨cause, a, hdue⟩ := faultDue_of_exec_faulted (s := s.advancePc) hs hexec hu
    obtain ⟨hsome, hhandler⟩ := cause_of_faultDue hdue
    have hdiscarded := step_of_faultsAs hs hpc rfl (faultsAs_of_faultDue hdue)
    rw [encode_decode] at hdiscarded
    refine ⟨cause, BitVec.ofNat 16 a, hsome, ?_, .inr ⟨hpc, a, hdue, rfl⟩⟩
    rw [if_neg hhandler]
    exact Host.Outcome.next.inj (hstep.symm.trans hdiscarded)

end Sys2Proof.Machine
end

section
/-! PROOFS. Load (70_reset_and_hazards.md R263-R265): the answer to each kind of source, and what copying a ROM into
canonical memory leaves at every address. -/

namespace Sys2Proof.Machine

section
variable (s : State) {bytes : List Byte}

/-! ## The three answers -/

theorem State.load_unavailable : s.load none = (.unavailable, s) := rfl

theorem State.load_tooLarge (h : maxRom < bytes.length) : s.load (some bytes) = (.tooLarge, s) := if_pos h

theorem State.load_ok (h : bytes.length ≤ maxRom) : s.load (some bytes) = (.ok, s.copyIn 0x200 bytes) :=
  if_neg (Nat.not_lt.mpr h)

/-! ## The copy -/

/-- Reset lists no byte (R46), so memory is canonical. -/
theorem State.init_mem_wf : Memory.wf s.init.cfg.font s.init.mem := Memory.nil_wf _

/-- A copy inside canonical memory: the bytes in order, nothing else. -/
theorem State.copyIn_bytes {a : Nat} (h : a + bytes.length ≤ memSize) (hw : Memory.wf s.cfg.font s.mem) :
    (∀ k (hk : k < bytes.length), (s.copyIn a bytes).readByte (a + k) = bytes[k]) ∧
      (∀ a', a' < a ∨ a + bytes.length ≤ a' → (s.copyIn a bytes).readByte a' = s.readByte a') ∧
      UnchangedBut [.memory] s (s.copyIn a bytes) := by
  obtain ⟨-, hmem, hread⟩ := s.copyIn_spec a bytes h hw
  refine ⟨fun k hk => ?_, fun a' ha' => ?_, hmem ▸ s.mem_update_unchanged _⟩
  · simp [hread, hk]
  · rw [hread, dif_neg (by omega)]

end

/-- Settles O2: the length alone tells TooLarge from Ok, and the longest ROM ends where memory does, so on the canonical
memory of a fresh machine the copy is `copyIn_bytes`. -/
theorem loadCopiesVerbatimOrChangesNothing : Obligations.LoadCopiesVerbatimOrChangesNothing := by
  refine ⟨State.load_unavailable, fun s _ => s.load_tooLarge, fun s bytes hfresh hlen => ?_⟩
  have hcanonical : Memory.wf s.cfg.font s.mem := hfresh ▸ s.init_mem_wf
  have hfits : 0x200 + bytes.length ≤ memSize := Nat.add_le_add_left hlen 0x200
  exact ⟨s.copyIn 0x200 bytes, s.load_ok hlen, s.copyIn_bytes hfits hcanonical⟩

end Sys2Proof.Machine
end

section
/-! PROOFS. Decode and encode as inverses (30_encoding.md R71, R75-R80), and the no-op encodings (R84): which slots each
secondary table leaves unpopulated, then the words whose slot is one of them. -/

namespace Sys2Proof

/-! ## The unpopulated slots (R76-R79) -/

section
variable {op : Word}

theorem decode0_eq_nop_iff : decode0 op = .nop op ↔ Op.n op ∉ ([0x0, 0xE] : List (BitVec 4)) := by
  unfold decode0
  split_ifs <;> simp_all

theorem decode8_eq_nop_iff :
    decode8 op = .nop op ↔ Op.n op ∉ ([0x0, 0x1, 0x2, 0x3, 0x4, 0x5, 0x6, 0x7, 0xE] : List (BitVec 4)) := by
  unfold decode8
  split_ifs <;> simp_all

theorem decodeE_eq_nop_iff : decodeE op = .nop op ↔ Op.n op ∉ ([0xE, 0x1] : List (BitVec 4)) := by
  unfold decodeE
  split_ifs <;> simp_all

theorem decodeF_eq_nop_iff :
    decodeF op = .nop op ↔ Op.kk op ∉ ([0x07, 0x0A, 0x15, 0x18, 0x1E, 0x29, 0x33, 0x55, 0x65] : List Byte) := by
  unfold decodeF
  split_ifs <;> simp_all

end

/-- The word's slot is one that its family's secondary table leaves to the no-op. -/
def InUnpopulatedSlot (op : Word) : Prop :=
  (Op.family op = 0x0 ∧ Op.n op ∉ ([0x0, 0xE] : List (BitVec 4))) ∨
  (Op.family op = 0x8 ∧ Op.n op ∉ ([0x0, 0x1, 0x2, 0x3, 0x4, 0x5, 0x6, 0x7, 0xE] : List (BitVec 4))) ∨
  (Op.family op = 0xE ∧ Op.n op ∉ ([0xE, 0x1] : List (BitVec 4))) ∨
  (Op.family op = 0xF ∧ Op.kk op ∉ ([0x07, 0x0A, 0x15, 0x18, 0x1E, 0x29, 0x33, 0x55, 0x65] : List Byte))

theorem decode_eq_nop_iff (op : Word) : decode op = .nop op ↔ InUnpopulatedSlot op := by
  unfold InUnpopulatedSlot
  generalize hf : Op.family op = f
  unfold decode
  rw [hf]
  match f with
  | 0x0 => simpa using decode0_eq_nop_iff
  | 0x8 => simpa using decode8_eq_nop_iff
  | 0xE => simpa using decodeE_eq_nop_iff
  | 0xF => simpa using decodeF_eq_nop_iff
  | 0x1 | 0x2 | 0x3 | 0x4 | 0x5 | 0x6 | 0x7 | 0x9 | 0xA | 0xB | 0xC | 0xD => simp
  | .ofFin ⟨k + 16, hk⟩ => exact absurd hk (by omega)

/-! ## The two other lists of the no-op encodings: the well-formedness check and the rule (R84) -/

theorem nibble_unpopulated0_iff (n : BitVec 4) : n ∉ ([0x0, 0xE] : List (BitVec 4)) ↔ n ≠ 0x0 ∧ n ≠ 0xE := by simp

theorem nibble_unpopulated8_iff : ∀ n : BitVec 4,
    n ∉ ([0x0, 0x1, 0x2, 0x3, 0x4, 0x5, 0x6, 0x7, 0xE] : List (BitVec 4)) ↔
      (0x8 ≤ n.toNat ∧ n.toNat ≤ 0xD ∨ n = 0xF) := by decide

theorem nibble_unpopulatedE_iff : ∀ n : BitVec 4,
    n ∉ ([0xE, 0x1] : List (BitVec 4)) ↔ (n = 0x0 ∨ 0x2 ≤ n.toNat ∧ n.toNat ≤ 0xD ∨ n = 0xF) := by decide

theorem isNopWord_iff (op : Word) : isNopWord op = true ↔ InUnpopulatedSlot op := by
  have h8 : ∀ n : BitVec 4, n.toNat ≥ 0x8 ∧ n ≠ 0xE ↔
      n ∉ ([0x0, 0x1, 0x2, 0x3, 0x4, 0x5, 0x6, 0x7, 0xE] : List (BitVec 4)) := by decide
  have hE : ∀ n : BitVec 4, n ≠ 0x1 ∧ n ≠ 0xE ↔ n ∉ ([0xE, 0x1] : List (BitVec 4)) := by decide
  unfold isNopWord InUnpopulatedSlot Op.family Op.n Op.kk
  simp only [Bool.or_eq_true, Bool.and_eq_true, Bool.not_eq_true', beq_iff_eq, bne_iff_ne, decide_eq_true_eq,
    and_assoc, or_assoc, h8, hE, nibble_unpopulated0_iff, List.contains_eq_mem,
    decide_eq_false_iff_not]

/-- Settles O16: the dispatch leaves exactly these slots, whose nibbles R84 lists as ranges. -/
theorem noOpWordsAreExactlyTheUnpopulatedSlots : Obligations.NoOpWordsAreExactlyTheUnpopulatedSlots := by
  intro op
  rw [decode_eq_nop_iff, InUnpopulatedSlot, nibble_unpopulated0_iff, nibble_unpopulated8_iff, nibble_unpopulatedE_iff]

/-! ## Round trips -/

/-- Settles O14, format by format: the dispatch reads the fields the word was packed from, and a no-op's word is one of
an unpopulated slot. -/
theorem decodeOfEncodeIsTheInstruction : Obligations.DecodeOfEncodeIsTheInstruction := by
  intro i hi
  cases i
  case cls | ret => simp [encode, decode, decode0]
  case jp | call | ldI | jpV0 => simp [encode, decode]
  case seImm | sneImm | ldImm | addImm | rnd => simp [encode, decode]
  case seReg | sneReg | drw => simp [encode, decode]
  case ldReg | or | and | xor | addReg | sub | shr | subn | shl => simp [encode, decode, decode8]
  case skp | sknp => simp [encode, decode, decodeE]
  case ldVxDt | ldVxK | ldDtVx | ldStVx | addI | ldF | ldB | ldStore | ldLoad => simp [encode, decode, decodeF]
  case nop w => exact (decode_eq_nop_iff w).mpr ((isNopWord_iff w).mp hi)

/-- Only a no-op can be ill formed, and a word that decodes to one decodes to its own. -/
theorem decode_wellFormed (op : Word) : (decode op).wellFormed = true := by
  have hword := encode_decode op
  cases hd : decode op with
  | nop w =>
    rw [hd] at hword
    obtain rfl : w = op := hword
    exact (isNopWord_iff w).mpr ((decode_eq_nop_iff w).mp hd)
  | _ => rfl

/-- Settles O15: the fields a row reads and those it fixes make up the word. -/
theorem encodeOfDecodeIsTheWord : Obligations.EncodeOfDecodeIsTheWord :=
  fun op => ⟨encode_decode op, decode_wellFormed op⟩

end Sys2Proof
end

section
/-! PROOFS. Who reaches the keys, memory and the draws (10_state.md section 8, 20_memory.md section 1, 42_alu.md
section 3): putting other keys, another memory or another number of draws in the state is an overlay, which commutes
with the stack, display and draw handlers too unless it is about what they access. -/

namespace Sys2Proof.Machine

namespace Overlay

variable {f : State → State} (hf : Overlay f) (s : State)

/-! ## Stack accesses -/

section
variable (hstack : ∀ s, (f s).stack = s.stack) (hsp : ∀ s, (f s).sp = s.sp)
  (hset : ∀ s k p, { f s with stack := k, sp := p } = f { s with stack := k, sp := p })
include hf hstack hsp hset

theorem pushPc : (f s).pushPc = s.pushPc.map f := by
  by_cases h : s.sp.val < 16
  · have h' : (f s).sp.val < 16 := by rwa [hsp]
    rw [s.pushPc_ok h, (f s).pushPc_ok h']
    refine congrArg Except.ok (Eq.trans ?_ (hset s _ _))
    simp only [hsp, hstack, hf.pc]
  · have hfull : s.sp.val = 16 := by omega
    rw [s.pushPc_error hfull, (f s).pushPc_error (by rwa [hsp])]
    rfl

theorem popPc : (f s).popPc = s.popPc.map f := by
  by_cases h : 0 < s.sp.val
  · have h' : 0 < (f s).sp.val := by rwa [hsp]
    rw [s.popPc_ok h, (f s).popPc_ok h']
    refine congrArg Except.ok (Eq.trans ?_ (hset (s.setPc (s.stack[s.sp.val - 1]'(by omega))) s.stack _))
    rw [← hf.setPc]
    simp only [State.setPc, hsp, hstack]
  · have hempty : s.sp.val = 0 := by omega
    rw [s.popPc_error hempty, (f s).popPc_error (by rwa [hsp])]
    rfl

theorem exec_call (nnn : Addr12) : exec (.call nnn) (f s) = mapNext f (exec (.call nnn) s) := by
  refine hf.endHandler s _ ?_
  rw [hf.pushPc s hstack hsp hset]
  cases s.pushPc with
  | error r => rfl
  | ok t => exact congrArg Except.ok (hf.setPc t _)

theorem exec_ret (g : Byte) : exec (.ret g) (f s) = mapNext f (exec (.ret g) s) :=
  hf.endHandler s _ (hf.popPc s hstack hsp hset)

end

/-! ## Display accesses -/

section
variable (hset : ∀ s fb, { f s with fb := fb } = f { s with fb := fb })
include hset

theorem exec_cls (g : Byte) : exec (.cls g) (f s) = mapNext f (exec (.cls g) s) :=
  congrArg Host.Outcome.next (hset s _)

variable (hfb : ∀ s, (f s).fb = s.fb) (hmem : ∀ s, (f s).mem = s.mem)
include hf hfb

theorem drawSprite (x y : Reg) (rows : List Byte) : (f s).drawSprite x y rows = f (s.drawSprite x y rows) := by
  simp only [State.drawSprite, hfb, hf.reg, hset, hf.setReg]

include hmem

theorem exec_drw (x y : Reg) (n : BitVec 4) : exec (.drw x y n) (f s) = mapNext f (exec (.drw x y n) s) := by
  refine hf.endHandler s _ ?_
  rw [hf.i, State.memReads_congr s (f s) _ _ (hmem s) (hf.cfg s)]
  cases s.memReads s.i.toNat n.toNat with
  | error r => rfl
  | ok rows => exact congrArg Except.ok (hf.drawSprite s hset hfb x y rows)

end

/-! ## Draws -/

section
variable (hdraws : ∀ s, (f s).draws = s.draws) (hset : ∀ s d, { f s with draws := d } = f { s with draws := d })
include hf hdraws hset

theorem exec_rnd (x : Reg) (kk : Byte) : exec (.rnd x kk) (f s) = mapNext f (exec (.rnd x kk) s) := by
  have hdraw : (f s).draw = s.draw := congrArg Config.randByte (hdraws s)
  simp only [Machine.exec_rnd, mapNext, hdraw, hf.setReg, State.takeDraw, hdraws, hset]

end

end Overlay

/-! ## Keys -/

/-- This state with other keys. -/
def State.withKeys (k : Vector Bool 16) (s : State) : State := { s with key := k }

theorem State.withKeys_overlay (k : Vector Bool 16) : Overlay (State.withKeys k) := by
  constructor <;> intros <;> rfl

theorem exec_withKeys (k : Vector Bool 16) (s : State) (i : Instr) (hskp : i.handler ≠ .skp)
    (hsknp : i.handler ≠ .sknp) (hwait : i.handler ≠ .ldVxK) :
    exec i (s.withKeys k) = mapNext (State.withKeys k) (exec i s) := by
  have hf := State.withKeys_overlay k
  cases i
  case skp => exact absurd rfl hskp
  case sknp => exact absurd rfl hsknp
  case ldVxK => exact absurd rfl hwait
  case call nnn => exact hf.exec_call s (fun _ => rfl) (fun _ => rfl) (fun _ _ _ => rfl) nnn
  case ret g => exact hf.exec_ret s (fun _ => rfl) (fun _ => rfl) (fun _ _ _ => rfl) g
  case cls g => exact Overlay.exec_cls s (fun _ _ => rfl) g
  case drw x y n => exact hf.exec_drw s (fun _ _ => rfl) (fun _ => rfl) (fun _ => rfl) x y n
  case rnd x kk => exact hf.exec_rnd s (fun _ => rfl) (fun _ _ => rfl) x kk
  case ldB x => exact hf.exec_ldB s (fun _ => rfl) (fun _ _ => rfl) x
  case ldStore x => exact hf.exec_ldStore s (fun _ => rfl) (fun _ _ => rfl) x
  case ldLoad x => exact hf.exec_ldLoad s (fun _ => rfl) x
  all_goals exact hf.exec_of_registers_only s _ (by simp [Instr.handler])

theorem exec_keeps_keys {i : Instr} {s t : State} (h : exec i s = .next t) : t.key = s.key := by
  rcases exec_next_cases i s t h with ⟨r, rfl⟩ | hcompleted
  · rfl
  · rw [hcompleted]

theorem step_keeps_keys {s t : State} (h : step s = .next t) : t.key = s.key := by
  rcases step_next_cases s t h with ⟨-, rfl⟩ | ⟨-, -, rfl⟩ | ⟨-, -, u, hexec, rfl⟩
  · rfl
  · rfl
  · have hu : u.key = s.key := exec_keeps_keys (s := s.advancePc) hexec
    split
    · exact hu
    · rw [u.tick_eq]
      exact hu

/-- Settles O7: neither a handler nor the tick writes the keys, and other keys commute with every other handler. -/
theorem keysAreReadByThreeAndWrittenByNone : Obligations.KeysAreReadByThreeAndWrittenByNone :=
  ⟨fun _ _ => step_keeps_keys, fun i s k => exec_withKeys k s i⟩

/-! ## Memory -/

/-- This state with another memory. -/
def State.withMemory (m : Memory) (s : State) : State := { s with mem := m }

theorem State.withMemory_overlay (m : Memory) : Overlay (State.withMemory m) := by
  constructor <;> intros <;> rfl

theorem exec_withMemory (m : Memory) (s : State) (i : Instr)
    (hi : i.handler ∉ ([.drw, .ldB, .ldStore, .ldLoad] : List Handler)) :
    exec i (s.withMemory m) = mapNext (State.withMemory m) (exec i s) := by
  have hf := State.withMemory_overlay m
  cases i
  case drw | ldB | ldStore | ldLoad => exact absurd (by simp [Instr.handler]) hi
  case call nnn => exact hf.exec_call s (fun _ => rfl) (fun _ => rfl) (fun _ _ _ => rfl) nnn
  case ret g => exact hf.exec_ret s (fun _ => rfl) (fun _ => rfl) (fun _ _ _ => rfl) g
  case cls g => exact Overlay.exec_cls s (fun _ _ => rfl) g
  case rnd x kk => exact hf.exec_rnd s (fun _ => rfl) (fun _ _ => rfl) x kk
  case skp x g => exact hf.exec_skp s (fun _ => rfl) x g
  case sknp x g => exact hf.exec_sknp s (fun _ => rfl) x g
  case ldVxK x => exact hf.exec_ldVxK s (fun _ => rfl) x
  all_goals exact hf.exec_of_registers_only s _ (by simp [Instr.handler])

theorem exec_drw_keeps_mem {x y : Reg} {n : BitVec 4} {s t : State} (h : exec (.drw x y n) s = .next t) :
    t.mem = s.mem := by
  rcases endHandler_next_cases h with hdrawn | ⟨r, -, rfl⟩
  · cases hreads : s.memReads s.i.toNat n.toNat with
    | error r => rw [hreads] at hdrawn; cases hdrawn
    | ok rows => rw [hreads] at hdrawn; cases hdrawn; rfl
  · rfl

theorem exec_ldLoad_keeps_mem {x : Reg} {s t : State} (h : exec (.ldLoad x) s = .next t) : t.mem = s.mem := by
  rcases endHandler_next_cases h with hloaded | ⟨r, -, rfl⟩
  · cases hreads : s.memReads s.i.toNat (x.val + 1) with
    | error r => rw [hreads] at hloaded; cases hloaded
    | ok bs =>
      rw [hreads] at hloaded
      cases hloaded
      dsimp only
      rw [State.blockAdvanceI_eq, State.setRegs_eq]
  · rfl

/-- A handler that another memory commutes with cannot have written it: put the state's own memory in. -/
theorem exec_keeps_mem {i : Instr} {s t : State} (hi : i.handler ∉ ([.ldB, .ldStore] : List Handler))
    (h : exec i s = .next t) : t.mem = s.mem := by
  by_cases hreads : i.handler ∈ ([.drw, .ldLoad] : List Handler)
  · cases i
    case drw => exact exec_drw_keeps_mem h
    case ldLoad => exact exec_ldLoad_keeps_mem h
    all_goals simp [Instr.handler] at hreads
  · have hcommutes := exec_withMemory s.mem s i (by simp_all)
    have hown : s.withMemory s.mem = s := rfl
    rw [hown, h] at hcommutes
    have hsame : t = t.withMemory s.mem := Host.Outcome.next.inj hcommutes
    rw [hsame]
    rfl

/-- Settles O9: another memory commutes with every other handler, and of the four only the two stores write memory. -/
theorem memoryIsReachedByFourHandlersOnly : Obligations.MemoryIsReachedByFourHandlersOnly :=
  ⟨fun i s m => exec_withMemory m s i, fun _ _ _ => exec_keeps_mem⟩

/-! ## Draws -/

/-- This state with another number of draws taken. -/
def State.withDraws (d : Nat) (s : State) : State := { s with draws := d }

theorem State.withDraws_overlay (d : Nat) : Overlay (State.withDraws d) := by
  constructor <;> intros <;> rfl

theorem exec_withDraws (d : Nat) (s : State) (i : Instr) (hrnd : i.handler ≠ .rnd) :
    exec i (s.withDraws d) = mapNext (State.withDraws d) (exec i s) := by
  have hf := State.withDraws_overlay d
  cases i
  case rnd => exact absurd rfl hrnd
  case call nnn => exact hf.exec_call s (fun _ => rfl) (fun _ => rfl) (fun _ _ _ => rfl) nnn
  case ret g => exact hf.exec_ret s (fun _ => rfl) (fun _ => rfl) (fun _ _ _ => rfl) g
  case cls g => exact Overlay.exec_cls s (fun _ _ => rfl) g
  case drw x y n => exact hf.exec_drw s (fun _ _ => rfl) (fun _ => rfl) (fun _ => rfl) x y n
  case skp x g => exact hf.exec_skp s (fun _ => rfl) x g
  case sknp x g => exact hf.exec_sknp s (fun _ => rfl) x g
  case ldVxK x => exact hf.exec_ldVxK s (fun _ => rfl) x
  case ldB x => exact hf.exec_ldB s (fun _ => rfl) (fun _ _ => rfl) x
  case ldStore x => exact hf.exec_ldStore s (fun _ => rfl) (fun _ _ => rfl) x
  case ldLoad x => exact hf.exec_ldLoad s (fun _ => rfl) x
  all_goals exact hf.exec_of_registers_only s _ (by simp [Instr.handler])

/-- Settles O39: another number of draws commutes with every handler but RND. -/
theorem onlyRndTakesADraw : Obligations.OnlyRndTakesADraw := fun i s d => exec_withDraws d s i

end Sys2Proof.Machine
end

section
/-! PROOFS. VF_ORDER (40_engine.md R107): where the destination is not VF, the result and the flag go to two different
registers, so which is written last does not show. -/

namespace Sys2Proof.Machine

/-- With a destination other than VF the two writes are to different registers: their order does not matter (R107). -/
theorem State.setRegAndFlag_of_ne (s : State) {x : Reg} (hx : x ≠ 15) (res flag : Byte) :
    s.setRegAndFlag x res flag = (s.setReg x res).setReg Reg.vf flag := by
  unfold State.setRegAndFlag
  cases s.cfg.vfOrder with
  | flagLast => rfl
  | resultLast =>
    have hval : (Reg.vf : Nat) ≠ x.val := fun h => hx (Fin.ext h.symm)
    simp only [State.setReg]
    rw [Vector.set_comm _ _ hval]

/-- Settles O37: both orders are the same two register writes, and nothing else of the five reads `VF_ORDER`. -/
theorem vfOrderMattersOnlyForVf : Obligations.VfOrderMattersOnlyForVf := by
  intro x y s o hx i hi
  simp only [List.mem_cons, List.not_mem_nil, or_false] at hi
  rcases hi with rfl | rfl | rfl | rfl | rfl <;>
    simp only [exec_addReg, exec_sub, exec_shr, exec_subn, exec_shl, mapNext, State.setRegAndFlag_of_ne _ hx] <;> rfl

end Sys2Proof.Machine
end

section
/-! PROOFS. Frames of the handlers (10_state.md sections 2, 3, 5 and 7): the parts a handler may write when no fault is
due, once for all instructions; among the registers its named writers, and I by a block transfer only with
BLOCK_INC_I. -/

namespace Sys2Proof

/-- The parts of the state that a handler may write when it completes. -/
def Handler.writes : Handler → List Machine.Part
  | .cls => [.display]
  | .ret | .call => [.pc, .stack]
  | .jp | .jpV0 | .seImm | .sneImm | .seReg | .sneReg | .skp | .sknp => [.pc]
  | .ldImm | .addImm | .ldReg | .or | .and | .xor | .addReg | .sub | .shr | .subn | .shl | .ldVxDt => [.regs]
  | .rnd => [.regs, .draws]
  | .drw => [.regs, .display]
  | .ldVxK => [.regs, .pc]
  | .ldI | .addI | .ldF => [.index]
  | .ldDtVx => [.delay]
  | .ldStVx => [.sound]
  | .ldB => [.memory]
  | .ldStore => [.memory, .index]
  | .ldLoad => [.regs, .index]
  | .nop => []

namespace Machine

section
variable {s : State} {x : Reg}

/-! ## The memory handlers inside memory -/

theorem exec_ldB_of_in_memory (h : ¬ 0xFFF < s.i.toNat + 2) :
    ∃ t, exec (.ldB x) s = .next t ∧ UnchangedBut [.memory] s t := by
  have hin : s.i.toNat + (bcdDigits (s.reg x)).length ≤ memSize := by
    rw [bcdDigits_length]
    unfold memSize
    omega
  obtain ⟨t, hok⟩ := s.memWrites_completes _ _ hin
  exact ⟨t, by rw [exec_ldB, hok, endHandler_ok], s.memWrites_eq t _ _ hok ▸ s.mem_update_unchanged _⟩

theorem exec_ldStore_of_in_memory (h : ¬ 0xFFF < s.i.toNat + x.val) :
    ∃ t, exec (.ldStore x) s = .next (t.blockAdvanceI x) ∧ UnchangedBut [.memory] s t := by
  have hin : s.i.toNat + (s.regsUpTo x).length ≤ memSize := by
    rw [s.regsUpTo_length]
    unfold memSize
    omega
  obtain ⟨t, hok⟩ := s.memWrites_completes _ _ hin
  exact ⟨t, by rw [exec_ldStore, hok]; rfl, s.memWrites_eq t _ _ hok ▸ s.mem_update_unchanged _⟩

theorem exec_ldVxK_cases : exec (.ldVxK x) s = .next s.rewindPc ∨ ∃ k, exec (.ldVxK x) s = .next (s.setReg x k) := by
  simp only [exec, execLdVxK]
  cases scanKeys s.key 0 16 with
  | none => exact .inl rfl
  | some k => exact .inr ⟨k, rfl⟩

end

/-! ## Every part but those the handler writes -/

theorem not_of_faultDue_none {p : Prop} [Decidable p] {row : FaultCause × Nat}
    (h : (if p then some row else none) = none) : ¬ p := by
  simpa using h

section
variable {i : Instr} {s t : State} (hdue : faultDue i s = none)
include hdue

theorem exec_completes_within_writes : ∃ t, exec i s = .next t ∧ UnchangedBut i.handler.writes s t := by
  cases i
  case cls g => exact ⟨_, exec_cls g s, s.withDisplay_unchanged _⟩
  case ret g =>
    have hpos : 0 < s.sp.val := by have := not_of_faultDue_none hdue; omega
    exact ⟨_, exec_ret_of_pos s g hpos, s.pc_stack_update_unchanged _ _ _⟩
  case call nnn =>
    have hroom : s.sp.val < 16 := by have := not_of_faultDue_none hdue; omega
    exact ⟨_, exec_call_of_lt s nnn hroom, s.pc_stack_update_unchanged _ _ _⟩
  case jp | jpV0 => exact ⟨_, rfl, s.setPc_unchanged _⟩
  case seImm | sneImm | seReg | sneReg => exact ⟨_, rfl, s.skipIf_unchanged _⟩
  case ldImm | addImm | ldReg | or | and | xor | ldVxDt => exact ⟨_, rfl, s.setReg_unchanged _ _⟩
  case addReg | sub | shr | subn | shl => exact ⟨_, rfl, (s.setRegAndFlag_spec _ _ _).2⟩
  case rnd x kk =>
    obtain ⟨-, hrnd⟩ := rndMasksOneFreeDraw
    obtain ⟨t, hexec, -, -, -, -, hframe⟩ := hrnd x kk s
    exact ⟨t, hexec, hframe⟩
  case drw x y n =>
    have hin := not_of_faultDue_none hdue
    exact ⟨_, exec_drw_of_in_memory s x y n (by bv_omega), s.drawSprite_unchanged x y _⟩
  case skp x g =>
    have hkey := not_of_faultDue_none hdue
    exact ⟨_, exec_skp_of_index s g (k := ⟨(s.reg x).toNat, by omega⟩) rfl, s.skipIf_unchanged _⟩
  case sknp x g =>
    have hkey := not_of_faultDue_none hdue
    exact ⟨_, exec_sknp_of_index s g (k := ⟨(s.reg x).toNat, by omega⟩) rfl, s.skipIf_unchanged _⟩
  case ldVxK x =>
    rcases exec_ldVxK_cases (s := s) (x := x) with hwait | ⟨k, hkey⟩
    · exact ⟨_, hwait, s.rewindPc_unchanged.mono (by simp [Instr.handler, Handler.writes])⟩
    · exact ⟨_, hkey, (s.setReg_unchanged _ _).mono (by simp [Instr.handler, Handler.writes])⟩
  case ldI | addI | ldF => exact ⟨_, rfl, s.setI_unchanged _⟩
  case ldDtVx => exact ⟨_, rfl, s.dt_update_unchanged _⟩
  case ldStVx => exact ⟨_, rfl, s.st_update_unchanged _⟩
  case ldB => exact exec_ldB_of_in_memory (not_of_faultDue_none hdue)
  case ldStore x =>
    obtain ⟨t, hexec, hframe⟩ := exec_ldStore_of_in_memory (not_of_faultDue_none hdue)
    exact ⟨_, hexec, (hframe.mono (by simp [Instr.handler, Handler.writes])).trans
      ((t.blockAdvanceI_unchanged x).mono (by simp [Instr.handler, Handler.writes]))⟩
  case ldLoad x =>
    obtain ⟨-, hload, -⟩ := blockLoadReadsV0ToVx
    obtain ⟨t, hexec, -, -, -, hframe⟩ := hload x s (Nat.not_lt.mp (not_of_faultDue_none hdue))
    exact ⟨t, hexec, hframe⟩
  case nop => exact ⟨_, rfl, UnchangedBut.refl _ _⟩

variable (h : exec i s = .next t)
include h

theorem exec_frame : UnchangedBut i.handler.writes s t := by
  obtain ⟨u, hexec, hframe⟩ := exec_completes_within_writes hdue
  obtain rfl : u = t := Host.Outcome.next.inj (hexec.symm.trans h)
  exact hframe

/-! ## Registers (R22, R23) -/

theorem exec_reg_frame {r : Reg} (hr : ¬ Instr.mayWrite i r) : t.reg r = s.reg r := by
  have hframe := exec_frame hdue h
  cases i
  case ldImm | addImm | ldReg | or | and | xor | ldVxDt =>
    cases h
    exact s.reg_setReg_of_ne _ hr
  case rnd =>
    cases h
    exact s.reg_setReg_of_ne _ hr
  case addReg | sub | shr | subn | shl =>
    cases h
    obtain ⟨⟨-, -, hothers⟩, -⟩ := s.setRegAndFlag_spec _ _ _
    exact hothers r (mt Or.inl hr) (mt Or.inr hr)
  case drw x y n =>
    have hin := not_of_faultDue_none hdue
    rw [exec_drw_of_in_memory s x y n (by bv_omega)] at h
    cases h
    exact s.drawSprite_reg_of_ne x y _ hr
  case ldVxK x =>
    rcases exec_ldVxK_cases (s := s) (x := x) with hwait | ⟨k, hkey⟩
    · cases h.symm.trans hwait
      rfl
    · cases h.symm.trans hkey
      exact s.reg_setReg_of_ne _ hr
  case ldLoad x =>
    obtain ⟨-, hload, -⟩ := blockLoadReadsV0ToVx
    obtain ⟨u, hexec, -, hothers, -⟩ := hload x s (Nat.not_lt.mp (not_of_faultDue_none hdue))
    cases h.symm.trans hexec
    exact hothers r (Nat.not_le.mp hr)
  all_goals exact hframe .regs (by simp [Instr.handler, Handler.writes]) r

/-! ## The index register (R29, R207) -/

theorem exec_index_frame (hwriter : i.handler ∉ ([.ldI, .addI, .ldF] : List Handler))
    (hblock : i.handler ∈ ([.ldStore, .ldLoad] : List Handler) → s.cfg.blockIncI = false) : t.i = s.i := by
  have hframe := exec_frame hdue h
  cases i
  case ldI | addI | ldF => exact absurd (by simp [Instr.handler]) hwriter
  case ldStore x =>
    obtain ⟨u, hexec, hu⟩ := exec_ldStore_of_in_memory (x := x) (not_of_faultDue_none hdue)
    cases h.symm.trans hexec
    rw [s.blockAdvanceI_i_of_unchanged hu (by decide) (by decide), hblock (by simp [Instr.handler])]
    rfl
  case ldLoad x =>
    obtain ⟨-, hload, -⟩ := blockLoadReadsV0ToVx
    obtain ⟨u, hexec, -, -, hi, -⟩ := hload x s (Nat.not_lt.mp (not_of_faultDue_none hdue))
    cases h.symm.trans hexec
    rw [hi, hblock (by simp [Instr.handler])]
    rfl
  all_goals exact hframe .index (by simp [Instr.handler, Handler.writes])

end

/-! ## The timers and the PC (R26, R33, R34) -/

theorem handler_of_writes_delay {k : Handler} (h : Part.delay ∈ k.writes) : k = .ldDtVx := by
  cases k <;> simp [Handler.writes] at h ⊢

theorem handler_of_writes_sound {k : Handler} (h : Part.sound ∈ k.writes) : k = .ldStVx := by
  cases k <;> simp [Handler.writes] at h ⊢

theorem handler_of_writes_pc {k : Handler} (h : Part.pc ∈ k.writes) :
    k ∈ ([.ret, .jp, .call, .jpV0, .seImm, .sneImm, .seReg, .sneReg, .skp, .sknp, .ldVxK] : List Handler) := by
  cases k <;> simp [Handler.writes] at h ⊢

/-- A handler that raises writes nothing but the PC and the fault status (R232). -/
theorem FaultsAs.frame {i : Instr} {s t : State} {cause : FaultCause} {addr : Word} (hfault : FaultsAs i s cause addr)
    (h : exec i s = .next t) : UnchangedBut [.pc, .faultStatus] s t := by
  obtain rfl := Host.Outcome.next.inj (hfault.symm.trans h)
  intro p hp
  cases p
  case pc | faultStatus => simp at hp
  case stack => exact ⟨rfl, rfl⟩
  case memory | regs => exact fun _ => rfl
  all_goals rfl

/-- Settles O8: a handler that raises leaves all four kinds of register, and one that completes its frame. -/
theorem registersChangeOnlyByTheirWriters : Obligations.RegistersChangeOnlyByTheirWriters := by
  intro i s t h
  cases hdue : faultDue i s with
  | some row =>
    have hframe := (faultsAs_of_faultDue (cause := row.1) (a := row.2) hdue).frame h
    exact ⟨fun r hr => absurd (hframe .regs (by decide) r) hr, fun hi => absurd (hframe .index (by decide)) hi,
      fun hdt => absurd (hframe .delay (by decide)) hdt, fun hst => absurd (hframe .sound (by decide)) hst,
      fun _ => .inl (by simp)⟩
  | none =>
    have hframe := exec_frame hdue h
    refine ⟨fun r hr => ?_, fun hi => ?_, fun hdt => ?_, fun hst => ?_, fun hpc => .inr ?_⟩
    · by_contra hwriter
      exact hr (exec_reg_frame hdue h hwriter)
    · by_contra hwriter
      obtain ⟨hindex, hblock⟩ := not_or.mp hwriter
      exact hi (exec_index_frame hdue h hindex fun hk => Bool.eq_false_iff.mpr fun hinc => hblock ⟨hinc, hk⟩)
    · by_contra hwriter
      exact hdt (hframe .delay (mt handler_of_writes_delay hwriter))
    · by_contra hwriter
      exact hst (hframe .sound (mt handler_of_writes_sound hwriter))
    · by_contra hwriter
      exact hpc (hframe .pc (mt handler_of_writes_pc hwriter))

end Machine
end Sys2Proof
end

section
/-! PROOFS. A cycle that completes (40_engine.md R100-R105): a handler with no fault due, and then the tick. -/

namespace Sys2Proof.Machine

theorem faulted_of_faultDue {i : Instr} {s u : State} {row : FaultCause × Nat} (hdue : faultDue i s = some row)
    (h : exec i s = .next u) : u.fault.faulted = true := by
  have hfault := faultsAs_of_faultDue (cause := row.1) (a := row.2) hdue
  obtain rfl := Host.Outcome.next.inj (hfault.symm.trans h)
  rfl

/-- What an unfaulted step of an unfaulted core was. -/
theorem step_completed_cases {s t : State} (hs : s.fault.faulted = false) (ht : t.fault.faulted = false)
    (h : step s = .next t) :
    ∃ u, s.pc.toNat ≤ 0xFFE ∧ exec (decode s.fetchWord) s.advancePc = .next u ∧
      faultDue (decode s.fetchWord) s.advancePc = none ∧ t = u.tick := by
  rcases step_next_cases s t h with ⟨hfaulted, -⟩ | ⟨-, -, rfl⟩ | ⟨-, hpc, u, hexec, rfl⟩
  · exact absurd hfaulted (by simp [hs])
  · cases ht
  · cases hu : u.fault.faulted with
    | true => simp [hu] at ht
    | false =>
      refine ⟨u, hpc, hexec, ?_, if_neg Bool.false_ne_true⟩
      cases hdue : faultDue (decode s.fetchWord) s.advancePc with
      | none => rfl
      | some row => exact absurd (faulted_of_faultDue hdue hexec) (by simp [hu])

end Sys2Proof.Machine
end

section
/-! PROOFS. The invariant (10_state.md R48): it holds at reset, a step that ends faulted has only written the fault
status, and one that completes keeps canonical memory, frame-buffer cells of 0x00 or 0xFF and the fault status. -/

namespace Sys2Proof.Machine

/-! ## Reset (R46) -/

theorem State.initial_inv (cfg : Config) (draws strobes : Nat) : (State.initial cfg draws strobes).Inv :=
  ⟨Memory.nil_wf cfg.font, fun _ => .inl (Vector.getElem_replicate _), rfl⟩

/-- Settles O3: reset is a `State.initial`. -/
theorem invariantHoldsAtReset : Obligations.InvariantHoldsAtReset := State.initial_inv _ _ _

/-! ## Host moves (R250) -/

section
variable {s t : State}

/-- The invariant speaks of memory, the font, the frame buffer and the fault status only. -/
theorem State.Inv.of_same (hs : s.Inv) (hwf : Memory.wf t.cfg.font t.mem) (hfb : t.fb = s.fb)
    (hfault : t.fault = s.fault) : t.Inv := by
  obtain ⟨-, hdisplay, hlegal⟩ := hs
  refine ⟨hwf, ?_, ?_⟩
  · unfold State.displayLegal
    rwa [hfb]
  · unfold State.faultLegal
    rwa [hfault]

theorem State.load_inv (hs : s.Inv) (hfresh : s = s.init) (source : Option (List Byte)) :
    (s.load source).2.Inv := by
  cases source with
  | none => exact hs
  | some bytes =>
    by_cases hlen : bytes.length ≤ maxRom
    · have hcanonical : Memory.wf s.cfg.font s.mem := hfresh ▸ s.init_mem_wf
      obtain ⟨hwf, hmem, -⟩ := s.copyIn_spec 0x200 bytes (Nat.add_le_add_left hlen 0x200) hcanonical
      rw [s.load_ok hlen]
      exact hs.of_same hwf (by rw [hmem]) (by rw [hmem])
    · rw [s.load_tooLarge (Nat.not_le.mp hlen)]
      exact hs

/-- Settles O5, by cases on the move: the first gives a `State.initial`, load copies into canonical memory, and the keys
are no part of the invariant. -/
theorem hostMovesKeepInvariant : Obligations.HostMovesKeepInvariant := by
  intro s t hs hmove
  cases hmove with
  | init => exact State.initial_inv s.cfg s.draws s.strobes
  | load source hfresh => exact State.load_inv hs hfresh source
  | keys key => exact hs

/-! ## Handlers -/

theorem exec_keeps_wf {i : Instr} (hs : Memory.wf s.cfg.font s.mem) (h : exec i s = .next t) :
    Memory.wf t.cfg.font t.mem := by
  by_cases hstore : i.handler ∈ ([.ldB, .ldStore] : List Handler)
  · cases i
    case ldB x =>
      rcases endHandler_next_cases h with hok | ⟨r, -, rfl⟩
      · exact s.memWrites_wf t _ _ hok hs
      · exact hs
    case ldStore x =>
      rcases endHandler_next_cases h with hok | ⟨r, -, rfl⟩
      · cases hw : s.memWrites s.i.toNat (s.regsUpTo x) with
        | error r => rw [hw] at hok; cases hok
        | ok u =>
          rw [hw] at hok
          cases hok
          dsimp only
          rw [u.blockAdvanceI_eq]
          exact s.memWrites_wf u _ _ hw hs
      · exact hs
    all_goals simp [Instr.handler] at hstore
  · rw [exec_keeps_mem hstore h, exec_keeps_cfg h]
    exact hs

theorem xor_allOnes_legal {b : Byte} (h : b = 0x00 ∨ b = 0xFF) : b ^^^ 0xFF = 0x00 ∨ b ^^^ 0xFF = 0xFF := by
  rcases h with rfl | rfl
  · exact .inr rfl
  · exact .inl rfl

theorem handler_of_writes_display {k : Handler} (h : Part.display ∈ k.writes) : k = .cls ∨ k = .drw := by
  cases k <;> simp [Handler.writes] at h ⊢

/-- Of the two display handlers CLS writes 0x00 everywhere, and DRW XORs a cell with 0xFF or keeps it. -/
theorem exec_keeps_displayLegal {i : Instr} (hs : s.displayLegal) (hdue : faultDue i s = none)
    (h : exec i s = .next t) : t.displayLegal := by
  classical
  by_cases hdisplay : Part.display ∈ i.handler.writes
  · cases i
    case cls =>
      cases h
      exact fun c => .inl (Vector.getElem_replicate _)
    case drw x y n =>
      have hin := not_of_faultDue_none hdue
      rw [exec_drw_of_in_memory s x y n (by bv_omega)] at h
      cases h
      intro c
      rw [s.drawSprite_fb x y (by omega)]
      split
      · exact xor_allOnes_legal (hs c)
      · exact hs c
    all_goals exact absurd (handler_of_writes_display hdisplay) (by simp [Instr.handler])
  · have hfb : t.fb = s.fb := exec_frame hdue h .display hdisplay
    unfold State.displayLegal
    rwa [hfb]

theorem exec_completed_keeps_inv {i : Instr} (hs : s.Inv) (hdue : faultDue i s = none) (h : exec i s = .next t) :
    t.Inv := by
  obtain ⟨hwf, hdisplay, hlegal⟩ := hs
  have hfault : t.fault = s.fault := by
    obtain ⟨u, hexec, hkept⟩ := exec_of_no_fault_due hdue
    rwa [Host.Outcome.next.inj (h.symm.trans hexec)]
  refine ⟨exec_keeps_wf hwf h, exec_keeps_displayLegal hdisplay hdue h, ?_⟩
  unfold State.faultLegal
  rwa [hfault]

theorem State.tick_inv (hs : s.Inv) : s.tick.Inv := by
  have hwf : Memory.wf s.cfg.font s.mem := hs.left
  rw [s.tick_eq]
  exact hs.of_same hwf rfl rfl

/-! ## Steps -/

/-- A fault status with a cause, written over a state of the invariant. -/
theorem State.Inv.with_fault (hs : s.Inv) {q : FaultStatus} (hq : q.faulted = true) (hcause : q.cause ≠ .none) :
    State.Inv { s with fault := q } := by
  obtain ⟨hwf, hdisplay, -⟩ := hs
  refine ⟨hwf, hdisplay, ?_⟩
  unfold State.faultLegal
  rwa [if_pos hq]

end

/-- Settles O4: a faulted core does nothing, a cycle that faults is discarded but for the fault status (O21), and one
that completes is a completed handler and a tick. -/
theorem everyStepKeepsInvariant : Obligations.EveryStepKeepsInvariant := by
  intro s t hs hstep
  cases hf : s.fault.faulted with
  | true =>
    rw [step_of_faulted s hf] at hstep
    cases hstep
    exact hs
  | false =>
    cases ht : t.fault.faulted with
    | true =>
      obtain ⟨cause, addr, hcause, rfl, -⟩ := faultingCycleIsDiscarded s t hf hstep ht
      exact hs.with_fault rfl hcause
    | false =>
      obtain ⟨u, -, hexec, hdue, rfl⟩ := step_completed_cases hf ht hstep
      exact State.tick_inv (exec_completed_keeps_inv (s := s.advancePc) hs hdue hexec)

end Sys2Proof.Machine
end

section
/-! PROOFS. The ends of the fetch range (20_memory.md section 2), totality (00_scope.md section 7) and the model's
placing of an instruction (log 8). -/

namespace Sys2Proof.Machine

/-- Settles O10: past 0xFFE the cycle's own fetch fault, and no handler raises that cause. -/
theorem fetchFaultsExactlyPastFFE : Obligations.FetchFaultsExactlyPastFFE := by
  refine ⟨step_of_fetch_fault, fun s t hs hstep hpc ht => ?_⟩
  obtain ⟨cause, addr, -, rfl, hfetch | ⟨-, a, hdue, -⟩⟩ := faultingCycleIsDiscarded s t hs hstep ht
  · obtain ⟨-, -, hpast⟩ := hfetch
    omega
  · obtain ⟨-, hhandler⟩ := cause_of_faultDue hdue
    exact hhandler

theorem exec_answers_next (i : Instr) (s : State) : ∃ t, exec i s = .next t := by
  cases hdue : faultDue i s with
  | none =>
    obtain ⟨t, hexec, -⟩ := exec_of_no_fault_due hdue
    exact ⟨t, hexec⟩
  | some row => exact ⟨_, faultsAs_of_faultDue (cause := row.1) (a := row.2) hdue⟩

theorem step_answers_next (s : State) : ∃ t, step s = .next t := by
  cases hf : s.fault.faulted with
  | true => exact ⟨s, step_of_faulted s hf⟩
  | false =>
    by_cases hpc : s.pc.toNat ≤ 0xFFE
    · obtain ⟨u, hexec⟩ := exec_answers_next (decode s.fetchWord) s.advancePc
      exact ⟨_, step_of_exec s u hf hpc hexec⟩
    · exact ⟨_, step_of_fetch_fault s hf (Nat.not_le.mp hpc)⟩

/-- Settles O23: a handler completes or raises, and both are next states; so are the cycle's two other ends. -/
theorem everyCycleAnswersANextState : Obligations.EveryCycleAnswersANextState :=
  ⟨step_answers_next, exec_answers_next⟩

theorem decodeTableWord_eq_decode {w : Nat} (h : w < 2 ^ 16) :
    decodeTableWord 16 w = some (decode (BitVec.ofNat 16 w)) := by
  simp only [decodeTableWord, decodeBytes, wordOfBytes_bytes, Nat.mod_eq_of_lt h]

/-- Settles O18: the placed word is fetched (`placeOpcode_spec`), and the two bytes the table reads are that word's. -/
theorem placedWordIsRunNext : Obligations.PlacedWordIsRunNext := by
  intro s w hw hlt
  have hplaced : s.withFetchWord 16 w = s.placeOpcode (BitVec.ofNat 16 w) := by
    rw [State.withFetchWord, Nat.mod_eq_of_lt hlt]
  rw [hplaced]
  obtain ⟨hfault, hpc, hword⟩ := s.placeOpcode_spec (BitVec.ofNat 16 w) hw
  exact ⟨hfault, hpc, hword, by rw [hword, decodeTableWord_eq_decode hlt]⟩

/-- Settles O12, by running the decoder on the words written out. -/
theorem theseWordsDecodeAsTheSpecWritesThem : Obligations.TheseWordsDecodeAsTheSpecWritesThem := by
  unfold Obligations.TheseWordsDecodeAsTheSpecWritesThem
  decide

end Sys2Proof.Machine
end

section
/-! PROOFS. Runs of two instructions: a call and its return (41_flow.md R126), a store over the next instruction
(20_memory.md section 3), and the self-jump (60_exceptions.md section 7). -/

namespace Sys2Proof.Machine

/-! ## Call and return (R126) -/

/-- Settles O29: the slot below the SP of the call is the one pushed, and it holds the PC after the call. -/
theorem retResumesAfterTheCall : Obligations.RetResumesAfterTheCall := by
  intro nnn g s t u hroom hcall husp hslot
  rw [exec_call_of_lt s nnn hroom] at hcall
  cases hcall
  have hsp : u.sp.val = s.sp.val + 1 := by rw [husp]
  refine ⟨_, exec_ret_of_pos u g (by omega), ?_, Fin.ext ?_⟩
  · have hpushed : u.stack[s.sp.val]? = some s.pc := by
      rw [hslot]
      simp [hroom]
    have htop : u.stack[u.sp.val - 1]? = some s.pc := by rwa [hsp, Nat.add_sub_cancel]
    exact Option.some.inj ((Vector.getElem?_eq_getElem _).symm.trans htop)
  · show u.sp.val - 1 = s.sp.val
    omega

/-! ## A store over the next instruction -/

theorem State.tick_readByte (s : State) (a : Nat) : s.tick.readByte a = s.readByte a :=
  s.tick_unchanged .memory (by decide) a

theorem State.tick_pc (s : State) : s.tick.pc = s.pc := s.tick_unchanged .pc (by decide)

/-- Settles O11: the handler is run with the PC at the stored bytes, V0 and V1 are the first two, and the tick moves
neither. -/
theorem storeIsSeenByTheNextFetch : Obligations.StoreIsSeenByTheNextFetch := by
  intro s x hw hf hdecode hx hpc hi hlast
  obtain ⟨-, hstore, -⟩ := blockStoreWritesV0ToVx
  obtain ⟨u, hexec, hstored, -, -, hframe⟩ := hstore x s.advancePc hw hlast
  have hfault : u.fault = s.fault := hframe .faultStatus (by decide)
  have hupc : u.pc = s.pc + 2 := hframe .pc (by decide)
  have haddr : u.pc.toNat = s.i.toNat := by rw [hupc, hi]
  rw [← hdecode] at hexec
  refine ⟨u.tick, ?_, by rw [u.tick_pc, hupc], ?_⟩
  · rw [step_of_exec s u hf hpc hexec, if_neg (by simp [hfault, hf])]
  · rw [State.fetchWord, State.tick_readByte, State.tick_readByte, State.tick_pc, haddr]
    exact congrArg₂ wordOfBytes (hstored 0 (Nat.zero_le _)) (hstored 1 hx)

/-! ## The self-jump (R122, R254) -/

section
variable {s : State} (hidle : s.idle)
include hidle

theorem State.fetchWord_of_idle : s.fetchWord = packAddr 0x1 (s.pc.extractLsb' 0 12) := by
  obtain ⟨-, -, hhi, hlo⟩ := hidle
  rw [State.fetchWord, hhi, hlo]
  unfold wordOfBytes packAddr
  ext k hk
  simp only [BitVec.getElem_append, BitVec.getElem_or, BitVec.getElem_setWidth, BitVec.getElem_extractLsb']
  interval_cases k <;> simp

theorem State.decode_fetchWord_of_idle : decode s.fetchWord = .jp (s.pc.extractLsb' 0 12) := by
  rw [s.fetchWord_of_idle hidle]
  simp [decode]

theorem State.addrWord_pc_of_idle : addrWord (s.pc.extractLsb' 0 12) = s.pc := by
  obtain ⟨-, hpc, -⟩ := hidle
  apply BitVec.eq_of_toNat_eq
  rw [addrWord_toNat, BitVec.extractLsb'_toNat]
  simp only [Nat.shiftRight_zero]
  omega

theorem step_of_idle : step s = .next s.tick := by
  have hexec : exec (decode s.fetchWord) s.advancePc = .next s := by
    rw [s.decode_fetchWord_of_idle hidle, exec_jp, s.addrWord_pc_of_idle hidle]
    rfl
  obtain ⟨hf, hpc, -⟩ := hidle
  rw [step_of_exec s s hf hpc hexec, if_neg (by simp [hf])]

theorem State.tick_idle : s.tick.idle := by
  unfold State.idle
  simp only [State.tick_fault, State.tick_pc, State.tick_readByte]
  exact hidle

end

/-- Settles O25: the self-jump puts the PC back, so its cycle is the tick. -/
theorem idleLoopChangesOnlyTheTimers : Obligations.IdleLoopChangesOnlyTheTimers := fun s hidle =>
  ⟨s.tick, step_of_idle hidle, State.tick_idle hidle, s.tick_unchanged⟩

end Sys2Proof.Machine
end

section
/-! PROOFS. Coupled cycles (44_keys_timers.md R187, R188): each timer goes down once, from what the handler left, and a
key-wait without a key is a cycle that only ticks. -/

namespace Sys2Proof.Machine

theorem State.tick_unchanged_coupled (s : State) (h : s.cfg.timerMode = .coupled) :
    UnchangedBut [.delay, .sound] s s.tick := by
  intro p hp
  by_cases hstrobes : p = .strobes
  · subst hstrobes
    exact s.tick_strobes_coupled h
  · exact s.tick_unchanged p (by simp_all)

/-- Settles O48: the handler takes the PC advance back, so the cycle is the tick. -/
theorem waitingCycleKeepsPcAndTicks : Obligations.WaitingCycleKeepsPcAndTicks := by
  intro s x hf hpc hdecode hnone hmode
  have hback : s.advancePc.rewindPc = s := by
    simp [State.advancePc, State.rewindPc]
  have hexec : exec (decode s.fetchWord) s.advancePc = .next s := by
    rw [hdecode, exec_ldVxK_of_none s.advancePc x hnone, hback]
  have hstep : step s = .next s.tick := by
    rw [step_of_exec s s hf hpc hexec, if_neg (by simp [hf])]
  obtain ⟨hdt, hst⟩ := s.tick_timers_coupled hmode
  exact ⟨s.tick, hstep, hdt, hst, s.tick_unchanged_coupled hmode⟩

/-- Settles O50: the tick starts from what the handler left, which is the timer before the cycle unless the instruction
is the timer's one writer. -/
theorem coupledTimersGoDownOncePerCycle : Obligations.CoupledTimersGoDownOncePerCycle := by
  intro s t hf _ hmode hstep ht
  obtain ⟨u, -, hexec, hdue, rfl⟩ := step_completed_cases hf ht hstep
  have hcfg : u.cfg = s.cfg := exec_keeps_cfg (s := s.advancePc) hexec
  have hframe := exec_frame hdue hexec
  obtain ⟨hdt, hst⟩ := u.tick_timers_coupled (by rw [hcfg, hmode])
  rw [hdt, hst]
  refine ⟨fun hwriter => ?_, fun hwriter => ?_, fun x hdecode => ?_, fun x hdecode => ?_⟩
  · have hkept : u.dt = s.dt := hframe .delay (mt handler_of_writes_delay hwriter)
    rw [hkept]
  · have hkept : u.st = s.st := hframe .sound (mt handler_of_writes_sound hwriter)
    rw [hkept]
  · rw [hdecode, exec_ldDtVx] at hexec
    cases hexec
    rfl
  · rw [hdecode, exec_ldStVx] at hexec
    cases hexec
    rfl

end Sys2Proof.Machine
end

section
/-! PROOFS. The draw laws (43_display.md R177): the second draw targets the cells of the first, and XOR with 0xFF undoes
itself; on an all-off buffer the first finds no cell on, and the second finds on exactly the cells of the first. -/

namespace Sys2Proof.Machine

section
variable {s u : State} {x y : Reg}

/-- The targets are those of the sprite and its coordinates, nothing else of the state. -/
theorem spriteHits_congr (hi : u.i = s.i) (hx : u.reg x = s.reg x) (hy : u.reg y = s.reg y)
    (hmem : ∀ a : Nat, u.readByte a = s.readByte a) (n : Nat) (c : Fin fbSize) :
    SpriteHits u x y n c ↔ SpriteHits s x y n c := by
  simp only [SpriteHits, hi, hx, hy, hmem]

theorem byte_ne_zero_iff (b : Byte) : b ≠ 0 ↔ ∃ col < 8, b.getLsbD (7 - col) = true := by
  constructor
  · intro hb
    by_contra hbits
    push Not at hbits
    refine hb (BitVec.eq_of_getLsbD_eq fun k hk => ?_)
    have hbit := hbits (7 - k) (by omega)
    rw [show 7 - (7 - k) = k by omega] at hbit
    simpa using hbit
  · rintro ⟨col, -, hbit⟩ rfl
    simp at hbit

/-- A sprite targets some cell exactly when one of its rows has a set bit. -/
theorem exists_spriteHits_iff (n : Nat) :
    (∃ c, SpriteHits s x y n c) ↔ ∃ row < n, s.readByte (s.i.toNat + row) ≠ 0 := by
  simp only [byte_ne_zero_iff]
  constructor
  · rintro ⟨c, row, hrow, col, hcol, hbit, -⟩
    exact ⟨row, hrow, col, hcol, hbit⟩
  · rintro ⟨row, hrow, col, hcol, hbit⟩
    exact ⟨cellIndex ((s.reg x).toNat + col) ((s.reg y).toNat + row), row, hrow, col, hcol, hbit, rfl⟩

end

theorem cell_xor_xor (b : Byte) : b ^^^ 0xFF ^^^ 0xFF = b := by
  rw [BitVec.xor_assoc, BitVec.xor_self, BitVec.xor_zero]

section
variable (s : State) (x y : Reg) {n : Nat} (hn : n ≤ 32)
include hn

theorem State.drawSprite_vf_eq_one_iff :
    (s.drawSprite x y (s.spriteRows n)).reg 15 = 1 ↔ ∃ c : Fin fbSize, SpriteHits s x y n c ∧ s.fb[c] = 0xFF := by
  classical
  rw [s.drawSprite_vf x y hn, Ne.ite_eq_left_iff (by decide)]

theorem State.drawSprite_vf_eq_zero_iff :
    (s.drawSprite x y (s.spriteRows n)).reg 15 = 0 ↔ ¬ ∃ c : Fin fbSize, SpriteHits s x y n c ∧ s.fb[c] = 0xFF := by
  classical
  rw [s.drawSprite_vf x y hn, Ne.ite_eq_right_iff (by decide)]

end

section
variable {s u : State} {x y : Reg} {n : Nat} (hn : n ≤ 32)
  (hfb : u.fb = (s.drawSprite x y (s.spriteRows n)).fb) (hhits : ∀ c, SpriteHits u x y n c ↔ SpriteHits s x y n c)
include hn hfb hhits

/-- Law (a): the second draw of the same cells. -/
theorem State.drawSprite_twice_fb : (u.drawSprite x y (u.spriteRows n)).fb = s.fb := by
  classical
  refine Vector.ext fun k hk => ?_
  have hfirst := s.drawSprite_fb x y hn ⟨k, hk⟩
  have hsecond := u.drawSprite_fb x y hn ⟨k, hk⟩
  rw [hfb, hfirst] at hsecond
  simp only [hhits] at hsecond
  split_ifs at hsecond
  · rwa [cell_xor_xor] at hsecond
  · exact hsecond

/-- Laws (b) and (c): what the second draw finds on after a first one onto an all-off buffer (log 13). -/
theorem exists_hit_on_after_draw_iff (hoff : ∀ c : Fin fbSize, s.fb[c] = 0x00) :
    (∃ c : Fin fbSize, SpriteHits u x y n c ∧ u.fb[c] = 0xFF) ↔ ∃ row < n, s.readByte (s.i.toNat + row) ≠ 0 := by
  classical
  rw [← exists_spriteHits_iff (x := x) (y := y)]
  refine exists_congr fun c => ?_
  rw [hhits c, hfb, s.drawSprite_fb x y hn c, hoff c]
  exact and_iff_left_of_imp fun hit => by rw [if_pos hit]; rfl

end

/-- Settles O45: both draws complete and target the same cells; then the laws one by one. -/
theorem drawingTwiceRestoresTheDisplay : Obligations.DrawingTwiceRestoresTheDisplay := by
  intro x y n s t u hdue hexec hfb hi hx hy hmem
  have hin := not_of_faultDue_none hdue
  have hn : n.toNat ≤ 32 := by omega
  rw [exec_drw_of_in_memory s x y n (by bv_omega)] at hexec
  cases hexec
  have hhits : ∀ c, SpriteHits u x y n.toNat c ↔ SpriteHits s x y n.toNat c :=
    spriteHits_congr hi hx hy hmem n.toNat
  refine ⟨_, exec_drw_of_in_memory u x y n (by rw [hi]; bv_omega), State.drawSprite_twice_fb hn hfb hhits,
    fun hoff => ?_⟩
  have hfirst : ¬ ∃ c : Fin fbSize, SpriteHits s x y n.toNat c ∧ s.fb[c] = 0xFF := by
    rintro ⟨c, -, hon⟩
    rw [hoff c] at hon
    cases hon
  have hsecond := exists_hit_on_after_draw_iff hn hfb hhits hoff
  refine ⟨(s.drawSprite_vf_eq_zero_iff x y hn).mpr hfirst, (u.drawSprite_vf_eq_one_iff x y hn).trans hsecond,
    (u.drawSprite_vf_eq_zero_iff x y hn).trans ((not_congr hsecond).trans ?_)⟩
  push Not
  rfl

end Sys2Proof.Machine
end
